-- ==== Sys2Proof/Word.lean ====
section
/-! DEFINITION. The value kinds of the machine (`00_scope.md` R9, R6): bytes, 16-bit words, 12-bit addresses, 4-bit nibbles. -/

namespace Sys2Proof

/-- An 8-bit value: register contents, byte immediates, memory cells (R9, R20, R27). -/
abbrev Byte := BitVec 8

/-- A 16-bit value: the instruction word, `PC`, `I`, stack slots (R22, R23, R24, R60). -/
abbrev Word := BitVec 16

/-- A 12-bit address or long immediate, the field `nnn` (R61, R63). -/
abbrev Addr12 := BitVec 12

/-- A 4-bit value: register indices `x`, `y`, the small count `n`, the opcode family (R61). -/
abbrev Nibble := BitVec 4

/-- A register index (R20): every 4-bit value names a register. -/
abbrev RegIdx := Nibble

/-- `VF`, the carry and collision register: `V[15]` (`FLAG_REG` of R4, R21). -/
abbrev VF : RegIdx := 15#4

/-- `zext_16` of R6. -/
abbrev zext16 {n : Nat} (v : BitVec n) : Word := v.setWidth 16

end Sys2Proof
end

