-- ==== Sys2Proof/Decode.lean ====
section
/-! DEFINITION. The decoder (`30_encoding.md` R60 to R71), and after it the encoder, written from the same table. -/

namespace Sys2Proof

/-! ### Fields (R61) -/

/-- `op`, the leading nibble `w[15:12]`: the opcode family. -/
def fieldOp (w : Word) : Nibble := w.extractLsb' 12 4
/-- `x = w[11:8]`. -/
def fieldX (w : Word) : RegIdx := w.extractLsb' 8 4
/-- `y = w[7:4]`. -/
def fieldY (w : Word) : RegIdx := w.extractLsb' 4 4
/-- `n = w[3:0]`, the trailing nibble. -/
def fieldN (w : Word) : Nibble := w.extractLsb' 0 4
/-- `kk = w[7:0]`, the trailing byte. -/
def fieldKK (w : Word) : Byte := w.extractLsb' 0 8
/-- `nnn = w[11:0]`. -/
def fieldNNN (w : Word) : Addr12 := w.extractLsb' 0 12

/-! ### Decoding -/

/-- Why bytes decode to no instruction. -/
inductive DecodeError
  /-- The word selects no row of R64 (R69). -/
  | illegal (w : Word)
  /-- Fewer than the two bytes of an instruction (R60) were given; an instruction fetch always gives two. -/
  | truncated
  deriving DecidableEq, Repr

/-- Family 0: CLS and RET are tested before the catch-all SYS (R65). -/
def decodeFamily0 (w : Word) : Instr :=
  if fieldNNN w = 0x0E0#12 then .cls
  else if fieldNNN w = 0x0EE#12 then .ret
  else .sys (fieldNNN w)

/-- Family 8: the trailing nibble selects one of nine operations (R66). -/
def decodeFamily8 (w : Word) : Except DecodeError Instr :=
  match (fieldN w).toNat with
  | 0x0 => .ok (.ldReg (fieldX w) (fieldY w))
  | 0x1 => .ok (.orReg (fieldX w) (fieldY w))
  | 0x2 => .ok (.andReg (fieldX w) (fieldY w))
  | 0x3 => .ok (.xorReg (fieldX w) (fieldY w))
  | 0x4 => .ok (.addReg (fieldX w) (fieldY w))
  | 0x5 => .ok (.subReg (fieldX w) (fieldY w))
  | 0x6 => .ok (.shr (fieldX w) (fieldY w))
  | 0x7 => .ok (.subnReg (fieldX w) (fieldY w))
  | 0xE => .ok (.shl (fieldX w) (fieldY w))
  | _   => .error (.illegal w)

/-- Family E: the trailing byte selects SKP or SKNP (R67). -/
def decodeFamilyE (w : Word) : Except DecodeError Instr :=
  match (fieldKK w).toNat with
  | 0x9E => .ok (.skp (fieldX w))
  | 0xA1 => .ok (.sknp (fieldX w))
  | _    => .error (.illegal w)

/-- Family F: the trailing byte selects one of nine operations (R67). -/
def decodeFamilyF (w : Word) : Except DecodeError Instr :=
  match (fieldKK w).toNat with
  | 0x07 => .ok (.ldVxDt (fieldX w))
  | 0x0A => .ok (.ldVxK (fieldX w))
  | 0x15 => .ok (.ldDtVx (fieldX w))
  | 0x18 => .ok (.ldStVx (fieldX w))
  | 0x1E => .ok (.addI (fieldX w))
  | 0x29 => .ok (.ldF (fieldX w))
  | 0x33 => .ok (.ldB (fieldX w))
  | 0x55 => .ok (.storeRegs (fieldX w))
  | 0x65 => .ok (.loadRegs (fieldX w))
  | _    => .error (.illegal w)

/-- The decoder as a function of the word alone (R64, R71): one of the 35 instructions with its fields, or `illegal`. -/
def decodeWord (w : Word) : Except DecodeError Instr :=
  match (fieldOp w).toNat with
  | 0x0 => .ok (decodeFamily0 w)
  | 0x1 => .ok (.jp (fieldNNN w))
  | 0x2 => .ok (.call (fieldNNN w))
  | 0x3 => .ok (.seImm (fieldX w) (fieldKK w))
  | 0x4 => .ok (.sneImm (fieldX w) (fieldKK w))
  | 0x5 => if fieldN w = 0x0#4 then .ok (.seReg (fieldX w) (fieldY w)) else .error (.illegal w)    -- R68
  | 0x6 => .ok (.ldImm (fieldX w) (fieldKK w))
  | 0x7 => .ok (.addImm (fieldX w) (fieldKK w))
  | 0x8 => decodeFamily8 w
  | 0x9 => if fieldN w = 0x0#4 then .ok (.sneReg (fieldX w) (fieldY w)) else .error (.illegal w)   -- R68
  | 0xA => .ok (.ldI (fieldNNN w))
  | 0xB => .ok (.jpV0 (fieldNNN w))
  | 0xC => .ok (.rnd (fieldX w) (fieldKK w))
  | 0xD => .ok (.drw (fieldX w) (fieldY w) (fieldN w))
  | 0xE => decodeFamilyE w
  | _   => decodeFamilyF w

/-- Word assembly: the byte at the lower address is the more significant one (R42, R60). -/
def wordOfBytes (hi lo : Byte) : Word := hi ++ lo

/-- The more significant byte of a word, which memory holds at the lower address (R42). -/
def highByte (w : Word) : Byte := w.extractLsb' 8 8

/-- The less significant byte of a word, which memory holds at the higher address (R42). -/
def lowByte (w : Word) : Byte := w.extractLsb' 0 8

/-- Decoding of any bytes: the first instruction and the bytes after it. -/
def decode : List Byte → Except DecodeError (Instr × List Byte)
  | hi :: lo :: rest =>
    match decodeWord (wordOfBytes hi lo) with
    | .ok i => .ok (i, rest)
    | .error e => .error e
  | [_] => .error .truncated
  | [] => .error .truncated

/-- The word of an instruction whose bits are `w`, numbered as `opcode_table.json` numbers them (one 16-bit word; bits at and above
`nbits` are zero). -/
def tableWord (nbits w : Nat) : Word := BitVec.ofNat 16 (w % 2 ^ nbits)

/-- The instruction the decoder reads from an instruction whose bits are `w`, laid out in memory order (R42). -/
def decodeTableWord (nbits w : Nat) : Option Instr :=
  match decode [highByte (tableWord nbits w), lowByte (tableWord nbits w)] with
  | .ok (i, _) => some i
  | .error _ => none

/-! ### Encoding (R62, R64, R71) -/

/-- Format NNN: `oooo nnnn nnnn nnnn`. -/
def packNNN (op : Nibble) (nnn : Addr12) : Word := op ++ nnn
/-- Format XKK: `oooo xxxx kkkk kkkk`, and format X with its selector as `kk`. -/
def packXKK (op : Nibble) (x : RegIdx) (kk : Byte) : Word := op ++ x ++ kk
/-- Format XYN: `oooo xxxx yyyy nnnn`, and format XY with its selector as `n`. -/
def packXYN (op : Nibble) (x y : RegIdx) (n : Nibble) : Word := op ++ x ++ y ++ n

/-- The word of an instruction: the fields at the positions of R61 and the fixed bits of R64. -/
def encode : Instr → Word
  | .cls => 0x00E0#16
  | .ret => 0x00EE#16
  | .sys nnn => packNNN 0x0#4 nnn
  | .jp nnn => packNNN 0x1#4 nnn
  | .call nnn => packNNN 0x2#4 nnn
  | .seImm x kk => packXKK 0x3#4 x kk
  | .sneImm x kk => packXKK 0x4#4 x kk
  | .seReg x y => packXYN 0x5#4 x y 0x0#4
  | .ldImm x kk => packXKK 0x6#4 x kk
  | .addImm x kk => packXKK 0x7#4 x kk
  | .ldReg x y => packXYN 0x8#4 x y 0x0#4
  | .orReg x y => packXYN 0x8#4 x y 0x1#4
  | .andReg x y => packXYN 0x8#4 x y 0x2#4
  | .xorReg x y => packXYN 0x8#4 x y 0x3#4
  | .addReg x y => packXYN 0x8#4 x y 0x4#4
  | .subReg x y => packXYN 0x8#4 x y 0x5#4
  | .shr x y => packXYN 0x8#4 x y 0x6#4
  | .subnReg x y => packXYN 0x8#4 x y 0x7#4
  | .shl x y => packXYN 0x8#4 x y 0xE#4
  | .sneReg x y => packXYN 0x9#4 x y 0x0#4
  | .ldI nnn => packNNN 0xA#4 nnn
  | .jpV0 nnn => packNNN 0xB#4 nnn
  | .rnd x kk => packXKK 0xC#4 x kk
  | .drw x y n => packXYN 0xD#4 x y n
  | .skp x => packXKK 0xE#4 x 0x9E#8
  | .sknp x => packXKK 0xE#4 x 0xA1#8
  | .ldVxDt x => packXKK 0xF#4 x 0x07#8
  | .ldVxK x => packXKK 0xF#4 x 0x0A#8
  | .ldDtVx x => packXKK 0xF#4 x 0x15#8
  | .ldStVx x => packXKK 0xF#4 x 0x18#8
  | .addI x => packXKK 0xF#4 x 0x1E#8
  | .ldF x => packXKK 0xF#4 x 0x29#8
  | .ldB x => packXKK 0xF#4 x 0x33#8
  | .storeRegs x => packXKK 0xF#4 x 0x55#8
  | .loadRegs x => packXKK 0xF#4 x 0x65#8

/-! ### The opcode map of R64 as a table

The table is a second reading of the spec beside `decodeWord`: a word selects the first row with `w AND mask = match`. -/

/-- One row of R64: its mask, its match value, and its instruction with the fields taken from the word. -/
structure OpcodeRow where
  mask  : Word
  bits  : Word
  build : Word → Instr

/-- Rows 1 to 10 of R64, in decode priority order. -/
def opcodeRowsA : List OpcodeRow :=
  [⟨0xFFFF#16, 0x00E0#16, fun _ => .cls⟩,
   ⟨0xFFFF#16, 0x00EE#16, fun _ => .ret⟩,
   ⟨0xF000#16, 0x0000#16, fun w => .sys (fieldNNN w)⟩,
   ⟨0xF000#16, 0x1000#16, fun w => .jp (fieldNNN w)⟩,
   ⟨0xF000#16, 0x2000#16, fun w => .call (fieldNNN w)⟩,
   ⟨0xF000#16, 0x3000#16, fun w => .seImm (fieldX w) (fieldKK w)⟩,
   ⟨0xF000#16, 0x4000#16, fun w => .sneImm (fieldX w) (fieldKK w)⟩,
   ⟨0xF00F#16, 0x5000#16, fun w => .seReg (fieldX w) (fieldY w)⟩,
   ⟨0xF000#16, 0x6000#16, fun w => .ldImm (fieldX w) (fieldKK w)⟩,
   ⟨0xF000#16, 0x7000#16, fun w => .addImm (fieldX w) (fieldKK w)⟩]

/-- Rows 11 to 20 of R64. -/
def opcodeRowsB : List OpcodeRow :=
  [⟨0xF00F#16, 0x8000#16, fun w => .ldReg (fieldX w) (fieldY w)⟩,
   ⟨0xF00F#16, 0x8001#16, fun w => .orReg (fieldX w) (fieldY w)⟩,
   ⟨0xF00F#16, 0x8002#16, fun w => .andReg (fieldX w) (fieldY w)⟩,
   ⟨0xF00F#16, 0x8003#16, fun w => .xorReg (fieldX w) (fieldY w)⟩,
   ⟨0xF00F#16, 0x8004#16, fun w => .addReg (fieldX w) (fieldY w)⟩,
   ⟨0xF00F#16, 0x8005#16, fun w => .subReg (fieldX w) (fieldY w)⟩,
   ⟨0xF00F#16, 0x8006#16, fun w => .shr (fieldX w) (fieldY w)⟩,
   ⟨0xF00F#16, 0x8007#16, fun w => .subnReg (fieldX w) (fieldY w)⟩,
   ⟨0xF00F#16, 0x800E#16, fun w => .shl (fieldX w) (fieldY w)⟩,
   ⟨0xF00F#16, 0x9000#16, fun w => .sneReg (fieldX w) (fieldY w)⟩]

/-- Rows 21 to 35 of R64. -/
def opcodeRowsC : List OpcodeRow :=
  [⟨0xF000#16, 0xA000#16, fun w => .ldI (fieldNNN w)⟩,
   ⟨0xF000#16, 0xB000#16, fun w => .jpV0 (fieldNNN w)⟩,
   ⟨0xF000#16, 0xC000#16, fun w => .rnd (fieldX w) (fieldKK w)⟩,
   ⟨0xF000#16, 0xD000#16, fun w => .drw (fieldX w) (fieldY w) (fieldN w)⟩,
   ⟨0xF0FF#16, 0xE09E#16, fun w => .skp (fieldX w)⟩,
   ⟨0xF0FF#16, 0xE0A1#16, fun w => .sknp (fieldX w)⟩,
   ⟨0xF0FF#16, 0xF007#16, fun w => .ldVxDt (fieldX w)⟩,
   ⟨0xF0FF#16, 0xF00A#16, fun w => .ldVxK (fieldX w)⟩,
   ⟨0xF0FF#16, 0xF015#16, fun w => .ldDtVx (fieldX w)⟩,
   ⟨0xF0FF#16, 0xF018#16, fun w => .ldStVx (fieldX w)⟩,
   ⟨0xF0FF#16, 0xF01E#16, fun w => .addI (fieldX w)⟩,
   ⟨0xF0FF#16, 0xF029#16, fun w => .ldF (fieldX w)⟩,
   ⟨0xF0FF#16, 0xF033#16, fun w => .ldB (fieldX w)⟩,
   ⟨0xF0FF#16, 0xF055#16, fun w => .storeRegs (fieldX w)⟩,
   ⟨0xF0FF#16, 0xF065#16, fun w => .loadRegs (fieldX w)⟩]

/-- The 35 rows of R64 in decode priority order. -/
def opcodeRows : List OpcodeRow := opcodeRowsA ++ opcodeRowsB ++ opcodeRowsC

/-- The row a word selects, applied to the word; none for an illegal word (R64, R69). -/
def tableDecode (w : Word) : Option Instr :=
  (opcodeRows.find? fun r => w &&& r.mask == r.bits).map fun r => r.build w

end Sys2Proof
end

