-- ==== Sys2Proof/Config.lean ====
section
/-! DEFINITION. The constants and parameters of R4, the input ports of R5, and the free values of the model. -/

namespace Sys2Proof

/-- `MEM_SIZE` of R4: the number of memory cells, at addresses 0 to 4095. -/
abbrev memSize : Nat := 4096

/-- `PROG_BASE` of R4: 512, the reset value of `PC`. -/
abbrev progBase : Word := 0x0200#16

/-- `SHIFT_SRC` of R4: the register that 8xy6 and 8xyE shift (D9). -/
inductive ShiftSrc
  | vx  -- `V[x]` is shifted in place, `y` ignored
  | vy  -- `V[x]` receives `V[y]` shifted
  deriving DecidableEq, Repr, Inhabited

/-- The OPEN parameters of R4, "an argument of the model", fixed before reset is released (R32).
The display is given by its last column and last row, so that `DISP_W >= 1` and `DISP_H >= 1` (R223, U6) hold by type.
`FONT_BASE` is at most 4016 by type (`FONT_BASE + 79 <= 4095`). Log 4. -/
structure Params where
  /-- `DISP_W - 1` -/
  maxCol   : Nat
  /-- `DISP_H - 1` -/
  maxRow   : Nat
  shiftSrc : ShiftSrc
  fontBase : Fin 4017
  deriving DecidableEq, Repr

/-- `DISP_W` of R4. -/
def Params.dispW (p : Params) : Nat := p.maxCol + 1

/-- `DISP_H` of R4. -/
def Params.dispH (p : Params) : Nat := p.maxRow + 1

/-- The input ports of R5, but `px_q`, whose answer is the display grid in the state (R31, R203, Log 14), as one turn sees them: what was sampled at a rising `clk` edge at which no step of R8 is in
progress. What arrives in a later cycle of a step that takes several is the model's choice, port by port:

* a tick event belongs to the record of the edge at which that step began, so that its latch is set at the next turn (Log 1, DEDUCED
  from R172);
* a key strobe belongs to the record of the next edge (R174, D31; both strobes: Log 6);
* a load-port write in a cycle with `run = 0` is a record of its own after that step, so that it falls after every access of the step
  (Log 8, DESIGN CHOICE: R51 has the write made, R45 lets none fall between the accesses);
* `keys` and `rnd` are the answers given within the step that the edge begins (Log 2);
* `rst` is looked at only at an edge with no step in progress (Log 15). -/
structure Pins where
  /-- synchronous reset (R220) -/
  rst      : Bool
  /-- 1: tick events are accepted; 0: they are ignored and the load port is live -/
  run      : Bool
  /-- instruction-tick event (R172) -/
  itick    : Bool
  /-- timer-tick event (R172) -/
  ttick    : Bool
  /-- program-load port (R51) -/
  ldWe     : Bool
  ldAddr   : Addr12
  ldData   : Byte
  /-- a key transition (R163) -/
  keyEvent : Bool
  /-- a pending key wait is abandoned (R164) -/
  kwCancel : Bool
  /-- bit `k` is the answer `key_q` of the keypad for `key_idx = k`: the state of key `k` for `k < 16`, unconstrained above (R160). Log 2. -/
  keys     : BitVec 256
  /-- the byte on the `rnd` port (R140) -/
  rnd      : Byte
  deriving DecidableEq, Repr, Inhabited

/-- FREE VALUE (Log 1, DESIGN CHOICE): the inputs at the clock edge with the given number, used when the state lists none.
No body: nothing constrains what the host drives (R177, U9 to U12). -/
opaque Config.freePins : Nat → Pins

/-- FREE VALUE (Log 4, DESIGN CHOICE): the setting of `SHIFT_SRC` in `State.reset`; the spec gives it no default (D9). -/
opaque Config.shiftSrc : ShiftSrc

/-- FREE VALUE (Log 3, DESIGN CHOICE): the row-major indices of the pixels that are lit at launch (R33, D21, U14). -/
opaque Config.launchPixels : List Nat

end Sys2Proof
end

