-- ==== Sys2Proof/Machine/Store.lean ====
section
/-! DEFINITION. A store of cells: a list of (key, value) pairs in one canonical form, keys strictly rising and no value equal to what
an unlisted key reads as. Memory and the display grid are such stores. -/

namespace Sys2Proof.Machine

/-- What key `a` reads as: its listed value, and `d` if it is not listed. -/
def cellRead {α : Type} (d : α) : List (Nat × α) → Nat → α
  | [], _ => d
  | (k, v) :: rest, a => if a = k then v else cellRead d rest a

/-- The list without the cells of key `a`. -/
def cellErase {α : Type} : List (Nat × α) → Nat → List (Nat × α)
  | [], _ => []
  | (k, v) :: rest, a => if a = k then cellErase rest a else (k, v) :: cellErase rest a

/-- The list with a cell for key `a` put before the first larger key. -/
def cellInsert {α : Type} : List (Nat × α) → Nat → α → List (Nat × α)
  | [], a, v => [(a, v)]
  | (k, u) :: rest, a, v => if a < k then (a, v) :: (k, u) :: rest else (k, u) :: cellInsert rest a v

/-- The store after writing `v` at key `a`; writing `d` leaves the key unlisted. -/
def cellWrite {α : Type} [DecidableEq α] (d : α) (m : List (Nat × α)) (a : Nat) (v : α) : List (Nat × α) :=
  if v = d then cellErase m a else cellInsert (cellErase m a) a v

/-- The canonical form: keys strictly rising, every key below `size`, no value equal to `d`. -/
abbrev CellsWf {α : Type} [DecidableEq α] (d : α) (size : Nat) (m : List (Nat × α)) : Prop :=
  m.Pairwise (fun p q => p.1 < q.1) ∧ ∀ p ∈ m, p.1 < size ∧ p.2 ≠ d

/-- Memory `M` (R27, R40): 4096 cells of 8 bits; only those that do not read 0x00 are listed. -/
abbrev Memory := List (Nat × Byte)

/-- What an unlisted address reads as: 0x00, the value of every cell after reset (R27, R33). -/
abbrev Memory.unlisted : Byte := 0x00#8

/-- The canonical form of memory; every listed address is one of 0 to 4095 (R40). -/
abbrev Memory.wf (m : Memory) : Prop := CellsWf Memory.unlisted memSize m

/-- The byte at an address (R45). -/
def Memory.read (m : Memory) (a : Nat) : Byte := cellRead Memory.unlisted m a

/-- Memory after writing one byte (R45). -/
def Memory.write (m : Memory) (a : Nat) (b : Byte) : Memory := cellWrite Memory.unlisted m a b

/-- The display grid `D` (R31, R152): pixel (column `c`, row `r`) has the key `r * DISP_W + c`; only lit pixels are listed. -/
abbrev Display := List (Nat × Bool)

/-- The row-major key of a pixel. -/
def pixelKey (p : Params) (c r : Nat) : Nat := r * p.dispW + c

/-- The canonical form of the display: every listed pixel lies inside the grid and is on. -/
abbrev Display.wf (p : Params) (d : Display) : Prop := CellsWf false (p.dispW * p.dispH) d

/-- The on/off state of the pixel at column `c`, row `r` (`PixRead` of R7). -/
def Display.read (p : Params) (d : Display) (c r : Nat) : Bool := cellRead false d (pixelKey p c r)

/-- The grid after `PixWrite(c, r, b)` (R7). -/
def Display.write (p : Params) (d : Display) (c r : Nat) (b : Bool) : Display := cellWrite false d (pixelKey p c r) b

/-- The grid in which exactly the pixels with the listed keys are on; keys outside the grid are passed over. -/
def Display.ofLit (p : Params) : List Nat → Display
  | [] => []
  | k :: rest => if k < p.dispW * p.dispH then cellWrite false (Display.ofLit p rest) k true else Display.ofLit p rest

end Sys2Proof.Machine
end

