-- ==== Sys2Proof/Machine/State.lean ====
section
/-! DEFINITION. The state of the machine (`10_state.md`), the reasons a step could stop, and the state right after reset. -/

namespace Sys2Proof.Machine

/-- The content of `FCAUSE` (R30, R190). Codes 6 and 7 are never produced and have no value here (U17, Log 9). -/
inductive Cause
  /-- 0: no fault recorded -/
  | none
  /-- 1: an illegal word was fetched (R191) -/
  | decodeFailure
  /-- 2: an access range reaches past address 4095 (R192) -/
  | memBound
  /-- 3: CALL with a full stack (R193) -/
  | stackOverflow
  /-- 4: RET with an empty stack (R194) -/
  | stackUnderflow
  /-- 5: an abandoned key wait (R195) -/
  | peripheralFailure
  deriving DecidableEq, Repr

/-- The reasons the MODEL's machine could stop with a fault: none. Every fault of the spec is recorded in the state and the machine
goes on taking turns (`raise`, R198), so nobody raises a value of this type and it has none (Log 11). Safe. -/
inductive Fault
  deriving DecidableEq, Repr

/-- The reasons the model could refuse a step. -/
inductive Refusal
  /-- Raised by an arm of `exec` for an instruction that has no meaning yet; no arm raises it now. Safe. -/
  | notModelled (mnemonic : String)
  deriving DecidableEq, Repr

/-- Every piece of state the spec gives the machine, then the model's own two fields.
Reset values: R33, and `State.reset` below. -/
structure State where
  /-- `V[0]` to `V[15]` (R20) -/
  v       : Vector Byte 16
  /-- `PC` (R22) -/
  pc      : Word
  /-- `I` (R23) -/
  i       : Word
  /-- `S[0]` to `S[15]` (R24) -/
  stack   : Vector Word 16
  /-- `SP`, the number of return addresses held, 0 to 16 (R24, Log 9) -/
  sp      : Fin 17
  /-- `DT` (R25) -/
  dt      : Byte
  /-- `ST` (R25) -/
  st      : Byte
  /-- `BUZ` (R26) -/
  buz     : Bool
  /-- `M` (R27) -/
  mem     : Memory
  /-- `IPEND` (R28) -/
  ipend   : Bool
  /-- `TPEND` (R28) -/
  tpend   : Bool
  /-- `WAITKEY` (R29) -/
  waitkey : Bool
  /-- `WAITREG` (R29) -/
  waitreg : RegIdx
  /-- `FCAUSE` (R30) -/
  fcause  : Cause
  /-- `FEPC` (R30) -/
  fepc    : Word
  /-- `FINFO` (R30) -/
  finfo   : Word
  /-- the display grid `D`, carried as state to give Dxyn a meaning (R31) -/
  display : Display
  /-- the OPEN parameters (R4); no step changes them (Log 4) -/
  params  : Params
  /-- the model's own (Log 1): the inputs at the coming clock edges, the next one first; beyond the list they are `Config.freePins` -/
  inputs  : List Pins
  /-- the model's own (Log 1): the number of clock edges taken, the argument of `Config.freePins` -/
  cycle   : Nat
  deriving DecidableEq, Repr

/-- The parameters in `State.reset`: the defaults R4 gives, and for `SHIFT_SRC`, which has none, a free value (Log 4). -/
def Params.atReset : Params :=
  { maxCol := 63, maxRow := 31, shiftSrc := Config.shiftSrc, fontBase := 0 }

/-- The machine right after reset (R33, R220): memory, registers and stack zero, `PC = 512`, all else of the block zero.
The display is not reset by the core: its contents are free (Log 3). -/
def State.reset : State where
  v       := Vector.replicate 16 0x00#8
  pc      := progBase
  i       := 0x0000#16
  stack   := Vector.replicate 16 0x0000#16
  sp      := 0
  dt      := 0x00#8
  st      := 0x00#8
  buz     := false
  mem     := []
  ipend   := false
  tpend   := false
  waitkey := false
  waitreg := 0#4
  fcause  := .none
  fepc    := 0x0000#16
  finfo   := 0x0000#16
  display := Display.ofLit Params.atReset Config.launchPixels
  params  := Params.atReset
  inputs  := []
  cycle   := 0

end Sys2Proof.Machine
end

