-- ==== Sys2Proof/Machine/Ops.lean ====
section
/-! DEFINITION. The named operations over the state: the primitives of R7, the fault record (R198), the stack (R24), the display
(R153), block transfers, instruction fetch (R42), and the output ports (R5). -/

namespace Sys2Proof.Machine

/-- The outcome of a step of this machine. -/
abbrev Result := Host.Outcome State Fault Refusal

/-! ### Registers -/

/-- `V[r]` of R7. All 16 registers can be read; none is hard-wired (R20). -/
def State.reg (s : State) (r : RegIdx) : Byte := s.v[r.toNat]'r.isLt

/-- `V[r] <- b` of R7. -/
def State.setReg (s : State) (r : RegIdx) (b : Byte) : State := { s with v := s.v.set r.toNat b r.isLt }

/-- `PC <- w`. -/
def State.setPc (s : State) (w : Word) : State := { s with pc := w }

/-- `PC <- (PC + 2) mod 2^16`: the advance of every fetch and of a taken skip (R22). -/
def State.advancePc (s : State) : State := s.setPc (s.pc + 2#16)

/-- A skip: advance by a further 2 if the condition holds; the skipped word is not fetched (R85, D35). -/
def State.skipIf (s : State) (taken : Bool) : State := if taken then s.advancePc else s

/-- `I <- w`. -/
def State.setI (s : State) (w : Word) : State := { s with i := w }

/-- `DT <- b`. -/
def State.setDt (s : State) (b : Byte) : State := { s with dt := b }

/-- `ST <- b`. -/
def State.setSt (s : State) (b : Byte) : State := { s with st := b }

/-! ### Memory -/

/-- `MemRead(a, 1)` of R7, for an address inside memory: every use stands behind `checkRange` or the fetch bound. -/
def State.readByte (s : State) (a : Nat) : Byte := s.mem.read a

/-- `MemWrite(a, 1, b)` of R7, for an address inside memory: every use stands behind `checkRange`, or has a 12-bit address. -/
def State.writeByte (s : State) (a : Nat) (b : Byte) : State := { s with mem := s.mem.write a b }

/-- `CheckRange(a, len)` of R7: the information `max(a, 4096)` of a `MemBound` fault if the range reaches past address 4095.
The end of the range is computed without wrap-around (R41). -/
def checkRange (a len : Nat) : Option Word :=
  if 1 ≤ len ∧ memSize - 1 < a + len - 1 then some (BitVec.ofNat 16 (max a memSize)) else none

/-- The word at the program counter, big-endian (R42). -/
def State.fetchWord (s : State) : Word := wordOfBytes (s.readByte s.pc.toNat) (s.readByte (s.pc.toNat + 1))

/-! ### The fault record -/

/-- `raise F(info)` of R198: writes exactly `FCAUSE`, `FINFO` and `FEPC`. Control goes nowhere and no mode changes; from here on no
`CpuStep` is enabled. -/
def State.raise (s : State) (c : Cause) (info epc : Word) : State :=
  { s with fcause := c, finfo := info, fepc := epc }

/-- The address of the instruction being executed: on entry to any meaning `PC = a + 2` (R89, Log 12). -/
def State.insnAddr (s : State) : Word := s.pc - 2#16

/-- A raise by the execute phase of an instruction: `FEPC` is the address it was fetched from (R170, R190). -/
def State.raiseHere (s : State) (c : Cause) (info : Word) : State := s.raise c info s.insnAddr

/-- The only exit from the faulted condition (R199): reset gives every piece of state inside the block its value of R33 and does not
touch the display (R220). The parameters and the inputs to come are not state of the block. -/
def State.resetBlock (s : State) : State :=
  { State.reset with display := s.display, params := s.params, inputs := s.inputs, cycle := s.cycle }

/-- The body of an instruction that accesses `len` bytes at `a`: the whole range is checked before any effect (R41, D6). -/
def withRange (a len : Nat) (s : State) (body : State → State) : Result :=
  match checkRange a len with
  | some info => .next (s.raiseHere .memBound info)
  | none => .next (body s)

/-! ### The call stack (R24) -/

/-- `S[k]` for `k` 0 to 15. -/
def State.slot (s : State) (k : Fin 16) : Word := s.stack[k]

/-- `S[SP] <- w; SP <- SP + 1`, for a stack that is not full (R82). -/
def State.push (s : State) (w : Word) (h : s.sp.val < 16) : State :=
  { s with stack := s.stack.set s.sp.val w h, sp := ⟨s.sp.val + 1, Nat.succ_lt_succ h⟩ }

/-- `SP <- SP - 1; PC <- S[SP]`, for a stack that is not empty (R83, C1). The slot keeps its content. -/
def State.popPc (s : State) (h : 0 < s.sp.val) : State :=
  { s with sp := ⟨s.sp.val - 1, Nat.lt_of_le_of_lt (Nat.sub_le _ _) s.sp.isLt⟩,
           pc := s.stack[s.sp.val - 1]'(by have := s.sp.isLt; omega) }

/-! ### The inputs (R5) -/

/-- The inputs at this clock edge: the first record listed, and beyond the list a free value (Log 1). -/
def State.pins (s : State) : Pins :=
  match s.inputs with
  | p :: _ => p
  | [] => Config.freePins s.cycle

/-- `KeyDown(k)` of R7, for the full 8-bit key number (R160, Log 2). -/
def State.keyDown (s : State) (k : Byte) : Bool := s.pins.keys.getLsbD k.toNat

/-- `Rand8()` of R7: the byte on the `rnd` port at this step. -/
def State.rand8 (s : State) : Byte := s.pins.rnd

/-! ### The display (R152, R153) -/

/-- `PixRead(c, r)` of R7. -/
def State.pixRead (s : State) (c r : Nat) : Bool := s.display.read s.params c r

/-- `PixWrite(c, r, b)` of R7. -/
def State.pixWrite (s : State) (c r : Nat) (b : Bool) : State := { s with display := s.display.write s.params c r b }

/-- `DispClear()` of R7: every pixel off. -/
def State.dispClear (s : State) : State := { s with display := [] }

/-- The compositing rule for one pixel (R153): a set sprite bit turns the pixel over, and turning it off records a collision. -/
def State.composite (s : State) (bit : Bool) (c r : Nat) : State :=
  if bit then
    if s.pixRead c r then (s.pixWrite c r false).setReg VF 0x01#8
    else s.pixWrite c r true
  else s

/-- The first `m` pixels of a sprite row, ascending, clipped at the right edge (R151). -/
def State.drawPixels (s : State) (b : Byte) (c0 r : Nat) : Nat → State
  | 0 => s
  | j + 1 =>
    let t := s.drawPixels b c0 r j
    if t.params.dispW ≤ c0 + j then t else t.composite (b.getLsbD (7 - j)) (c0 + j) r

/-- The first `m` rows of the sprite at `a`, ascending, clipped at the bottom edge (R151). -/
def State.drawRows (s : State) (a c0 r0 : Nat) : Nat → State
  | 0 => s
  | r + 1 =>
    let t := s.drawRows a c0 r0 r
    if t.params.dispH ≤ r0 + r then t else t.drawPixels (t.readByte (a + r)) c0 (r0 + r) 8

/-! ### Block transfers (R124, R125) -/

/-- Registers `V[0]` to `V[m - 1]` to the cells at `a`, ascending (R124). -/
def State.storeBlock (s : State) (a : Nat) : Nat → State
  | 0 => s
  | k + 1 => let t := s.storeBlock a k; t.writeByte (a + k) (t.reg (BitVec.ofNat 4 k))

/-- The cells at `a` to registers `V[0]` to `V[m - 1]`, ascending (R125). -/
def State.loadBlock (s : State) (a : Nat) : Nat → State
  | 0 => s
  | k + 1 => let t := s.loadBlock a k; t.setReg (BitVec.ofNat 4 k) (t.readByte (a + k))

/-! ### The output ports that show state (R5) -/

/-- The code of a cause in `FCAUSE` (R190, D7). -/
def Cause.code : Cause → BitVec 3
  | .none => 0#3
  | .decodeFailure => 1#3
  | .memBound => 2#3
  | .stackOverflow => 3#3
  | .stackUnderflow => 4#3
  | .peripheralFailure => 5#3

/-- The levels of the registered output ports (R5). -/
structure OutPorts where
  buzzer  : Bool
  waitkey : Bool
  fault   : Bool
  fcause  : BitVec 3
  fepc    : Word
  finfo   : Word
  deriving DecidableEq, Repr

/-- What the output ports show in a state: `BUZ`, `WAITKEY`, whether `FCAUSE` is not 0, and the fault record (R5, R198). -/
def State.outputs (s : State) : OutPorts where
  buzzer  := s.buz
  waitkey := s.waitkey
  fault   := s.fcause != .none
  fcause  := s.fcause.code
  fepc    := s.fepc
  finfo   := s.finfo

end Sys2Proof.Machine
end

