-- ==== Sys2Proof/Machine/Operands.lean ====
section
/-! DEFINITION. The operand forms: jump targets, shift sources, glyph addresses, decimal digits, sprite positions. -/

namespace Sys2Proof.Machine

/-- The target `nnn + V[0]` of JP V0: a 16-bit sum, not reduced to 12 bits (R84). -/
def State.jumpV0Target (s : State) (nnn : Addr12) : Word := zext16 nnn + zext16 (s.reg 0#4)

/-- The value a shift moves: `V[y]` under `SHIFT_SRC = VY`, else `V[x]` (R108, R110). -/
def State.shiftOperand (s : State) (x y : RegIdx) : Byte :=
  match s.params.shiftSrc with
  | .vy => s.reg y
  | .vx => s.reg x

/-- The address of the glyph of the low nibble of a byte: `FONT_BASE + 5 * b[3:0]` (R122). -/
def glyphAddr (p : Params) (b : Byte) : Word :=
  BitVec.ofNat 16 p.fontBase.val + 5#16 * zext16 (b.extractLsb' 0 4)

/-- The decimal digits of a byte: hundreds, tens, ones (R123). -/
def hundreds (b : Byte) : Byte := BitVec.ofNat 8 (b.toNat / 100)
def tens (b : Byte) : Byte := BitVec.ofNat 8 (b.toNat / 10 % 10)
def ones (b : Byte) : Byte := BitVec.ofNat 8 (b.toNat % 10)

/-- The number of registers a block transfer moves: `x + 1`, 1 to 16 (R124). -/
def blockLen (x : RegIdx) : Nat := x.toNat + 1

/-- The starting column `V[x] mod DISP_W` of a sprite (R151). -/
def State.drawCol (s : State) (x : RegIdx) : Nat := (s.reg x).toNat % s.params.dispW

/-- The starting row `V[y] mod DISP_H` of a sprite (R151). -/
def State.drawRow (s : State) (y : RegIdx) : Nat := (s.reg y).toNat % s.params.dispH

end Sys2Proof.Machine
end

