-- ==== Sys2Proof/Machine/Flags.lean ====
section
/-! DEFINITION. The flag computations of family 8 (`41_alu.md` R111, R112) and the writing of VF (R21). -/

namespace Sys2Proof.Machine

/-- A flag as the full byte VF receives: 0x01 or 0x00 (R21). -/
def flagByte (f : Bool) : Byte := if f then 0x01#8 else 0x00#8

/-- The carry of an addition: bit 8 of the 9-bit sum (R112). -/
def carryOut (a b : Byte) : Bool := (a.setWidth 9 + b.setWidth 9).getLsbD 8

/-- No borrow: the minuend is at least the subtrahend (R112, D11). -/
def noBorrow (minuend subtrahend : Byte) : Bool := subtrahend.ule minuend

/-- The bit a right shift by one moves out: bit 0 (R108). -/
def shiftedOutRight (t : Byte) : Bool := t.getLsbD 0

/-- The bit a left shift by one moves out: bit 7 (R110). -/
def shiftedOutLeft (t : Byte) : Bool := t.getLsbD 7

/-- The writes of a flag-setting instruction of family 8: first the result to `V[x]`, last the flag to `V[15]`, so that the flag
wins when `x = 15` (R111). -/
def State.writeWithFlag (s : State) (x : RegIdx) (result : Byte) (flag : Bool) : State :=
  (s.setReg x result).setReg VF (flagByte flag)

end Sys2Proof.Machine
end

