-- ==== Sys2Proof/Machine/Alu.lean ====
section
/-! DEFINITION. Register load, arithmetic and logic (`41_alu.md`). -/

namespace Sys2Proof.Machine

/-- LD Vx, kk (R100). -/
def execLdImm (x : RegIdx) (kk : Byte) (s : State) : Result := .next (s.setReg x kk)

/-- ADD Vx, kk (R101): no flag. -/
def execAddImm (x : RegIdx) (kk : Byte) (s : State) : Result := .next (s.setReg x (s.reg x + kk))

/-- LD Vx, Vy (R102). -/
def execLdReg (x y : RegIdx) (s : State) : Result := .next (s.setReg x (s.reg y))

/-- OR Vx, Vy (R103): VF is not modified (D12). -/
def execOrReg (x y : RegIdx) (s : State) : Result := .next (s.setReg x (s.reg x ||| s.reg y))

/-- AND Vx, Vy (R104): VF is not modified (D12). -/
def execAndReg (x y : RegIdx) (s : State) : Result := .next (s.setReg x (s.reg x &&& s.reg y))

/-- XOR Vx, Vy (R105): VF is not modified (D12). -/
def execXorReg (x y : RegIdx) (s : State) : Result := .next (s.setReg x (s.reg x ^^^ s.reg y))

/-- ADD Vx, Vy (R106): VF is the carry. -/
def execAddReg (x y : RegIdx) (s : State) : Result :=
  .next (s.writeWithFlag x (s.reg x + s.reg y) (carryOut (s.reg x) (s.reg y)))

/-- SUB Vx, Vy (R107): `V[x] - V[y]`, VF is NOT borrow. -/
def execSubReg (x y : RegIdx) (s : State) : Result :=
  .next (s.writeWithFlag x (s.reg x - s.reg y) (noBorrow (s.reg x) (s.reg y)))

/-- SUBN Vx, Vy (R109): `V[y] - V[x]`, VF is NOT borrow. -/
def execSubnReg (x y : RegIdx) (s : State) : Result :=
  .next (s.writeWithFlag x (s.reg y - s.reg x) (noBorrow (s.reg y) (s.reg x)))

/-- SHR Vx, Vy (R108): VF is the old bit 0 of the value shifted. -/
def execShr (x y : RegIdx) (s : State) : Result :=
  .next (s.writeWithFlag x (s.shiftOperand x y >>> 1) (shiftedOutRight (s.shiftOperand x y)))

/-- SHL Vx, Vy (R110): VF is the old bit 7 of the value shifted. -/
def execShl (x y : RegIdx) (s : State) : Result :=
  .next (s.writeWithFlag x (s.shiftOperand x y <<< 1) (shiftedOutLeft (s.shiftOperand x y)))

end Sys2Proof.Machine
end

