-- ==== Sys2Proof/Machine/Control.lean ====
section
/-! DEFINITION. Control transfer (`40_control_flow.md`). On entry `PC = a + 2` (R89). -/

namespace Sys2Proof.Machine

/-- SYS nnn, executed as a jump (R80). -/
def execSys (nnn : Addr12) (s : State) : Result := .next (s.setPc (zext16 nnn))

/-- JP nnn (R81). -/
def execJp (nnn : Addr12) (s : State) : Result := .next (s.setPc (zext16 nnn))

/-- JP V0, nnn (R84). -/
def execJpV0 (nnn : Addr12) (s : State) : Result := .next (s.setPc (s.jumpV0Target nnn))

/-- CALL nnn (R82): the full stack is checked before any write. -/
def execCall (nnn : Addr12) (s : State) : Result :=
  if h : s.sp.val < 16 then .next ((s.push s.pc h).setPc (zext16 nnn))
  else .next (s.raiseHere .stackOverflow (zext16 nnn))

/-- RET (R83): the empty stack is checked before any write. -/
def execRet (s : State) : Result :=
  if h : 0 < s.sp.val then .next (s.popPc h)
  else .next (s.raiseHere .stackUnderflow 0#16)

/-- SE Vx, kk (R85). -/
def execSeImm (x : RegIdx) (kk : Byte) (s : State) : Result := .next (s.skipIf (s.reg x == kk))

/-- SNE Vx, kk (R86). -/
def execSneImm (x : RegIdx) (kk : Byte) (s : State) : Result := .next (s.skipIf (s.reg x != kk))

/-- SE Vx, Vy (R87). -/
def execSeReg (x y : RegIdx) (s : State) : Result := .next (s.skipIf (s.reg x == s.reg y))

/-- SNE Vx, Vy (R88). -/
def execSneReg (x y : RegIdx) (s : State) : Result := .next (s.skipIf (s.reg x != s.reg y))

end Sys2Proof.Machine
end

