-- ==== Sys2Proof/Machine/IndexMemory.lean ====
section
/-! DEFINITION. The I register, BCD and block transfers (`42_index_memory.md`). No load or store changes `I`. -/

namespace Sys2Proof.Machine

/-- LD I, nnn (R120). -/
def execLdI (nnn : Addr12) (s : State) : Result := .next (s.setI (zext16 nnn))

/-- ADD I, Vx (R121): modulo 2^16, no flag, no fault. -/
def execAddI (x : RegIdx) (s : State) : Result := .next (s.setI (s.i + zext16 (s.reg x)))

/-- LD F, Vx (R122). -/
def execLdF (x : RegIdx) (s : State) : Result := .next (s.setI (glyphAddr s.params (s.reg x)))

/-- The three writes of LD B, in the order of R123. -/
def State.writeDigits (s : State) (a : Nat) (b : Byte) : State :=
  ((s.writeByte a (hundreds b)).writeByte (a + 1) (tens b)).writeByte (a + 2) (ones b)

/-- LD B, Vx (R123). -/
def execLdB (x : RegIdx) (s : State) : Result :=
  withRange s.i.toNat 3 s fun s => s.writeDigits s.i.toNat (s.reg x)

/-- LD [I], Vx (R124). -/
def execStoreRegs (x : RegIdx) (s : State) : Result :=
  withRange s.i.toNat (blockLen x) s fun s => s.storeBlock s.i.toNat (blockLen x)

/-- LD Vx, [I] (R125). -/
def execLoadRegs (x : RegIdx) (s : State) : Result :=
  withRange s.i.toNat (blockLen x) s fun s => s.loadBlock s.i.toNat (blockLen x)

end Sys2Proof.Machine
end

