-- ==== Sys2Proof/Machine/Keypad.lean ====
section
/-! DEFINITION. Keypad instructions and the two host steps that end a key wait (`45_keypad.md`). -/

namespace Sys2Proof.Machine

/-- SKP Vx (R160). -/
def execSkp (x : RegIdx) (s : State) : Result := .next (s.skipIf (s.keyDown (s.reg x)))

/-- SKNP Vx (R161). -/
def execSknp (x : RegIdx) (s : State) : Result := .next (s.skipIf (!s.keyDown (s.reg x)))

/-- The suspension point: `WAITREG <- x; WAITKEY <- 1` (R162). -/
def State.beginWait (s : State) (x : RegIdx) : State := { s with waitreg := x, waitkey := true }

/-- LD Vx, K (R162): only begins the wait; `V[x]` is written by the `KeyEventStep` that resolves it. -/
def execLdVxK (x : RegIdx) (s : State) : Result := .next (s.beginWait x)

/-- A key wait is pending and no fault is recorded: the guard of both key steps (R163, R164). -/
def State.waiting (s : State) : Bool := s.waitkey && s.fcause == .none

/-- `WAITKEY <- 0`. -/
def State.endWait (s : State) : State := { s with waitkey := false }

/-- `KeyEventStep` (R163): a key transition resolves the wait; without a wait it has no effect. -/
def State.keyEventStep (s : State) : State :=
  if s.waiting then (s.setReg s.waitreg 0x01#8).endWait else s

/-- `KeyCancelStep` (R164): an abandoned wait becomes a fault, with `FEPC` the address of the waiting Fx0A. -/
def State.keyCancelStep (s : State) : State :=
  if s.waiting then s.endWait.raise .peripheralFailure 0#16 (s.pc - 2#16) else s

end Sys2Proof.Machine
end

