-- ==== Sys2Proof/Machine/RandomTimers.lean ====
section
/-! DEFINITION. Random number and timer access instructions (`43_random_timers.md`). -/

namespace Sys2Proof.Machine

/-- RND Vx, kk (R140). -/
def execRnd (x : RegIdx) (kk : Byte) (s : State) : Result := .next (s.setReg x (s.rand8 &&& kk))

/-- LD Vx, DT (R141). -/
def execLdVxDt (x : RegIdx) (s : State) : Result := .next (s.setReg x s.dt)

/-- LD DT, Vx (R142). -/
def execLdDtVx (x : RegIdx) (s : State) : Result := .next (s.setDt (s.reg x))

/-- LD ST, Vx (R143): `BUZ` follows at the next timer step. -/
def execLdStVx (x : RegIdx) (s : State) : Result := .next (s.setSt (s.reg x))

end Sys2Proof.Machine
end

