-- ==== Sys2Proof/Machine/Video.lean ====
section
/-! DEFINITION. Display instructions (`44_display.md`). -/

namespace Sys2Proof.Machine

/-- CLS (R150): VF is not modified. -/
def execCls (s : State) : Result := .next s.dispClear

/-- DRW Vx, Vy, n (R151): operands first, then the bound check of all `n` bytes, then VF is cleared, then the draw. -/
def execDrw (x y : RegIdx) (n : Nibble) (s : State) : Result :=
  let c0 := s.drawCol x
  let r0 := s.drawRow y
  withRange s.i.toNat n.toNat s fun s => (s.setReg VF 0x00#8).drawRows s.i.toNat c0 r0 n.toNat

end Sys2Proof.Machine
end

