-- ==== Sys2Proof/Machine/Ports.lean ====
section
/-! DEFINITION. What the core drives, within a step, on the output ports to the display and the keypad (`00_scope.md` R5,
`60_exceptions.md` R203, R204). The ports that show state are `State.outputs`. -/

namespace Sys2Proof.Machine

/-- One cycle in which the core uses one of these ports (R5). DESIGN CHOICE (Log 14): a step is the list of its cycles in the order of
its pseudocode; how many `clk` cycles lie between two of them is left open (D31). -/
inductive PortCycle
  /-- `disp_clr` high: clear the display (R150) -/
  | clear
  /-- `px_rd` high: the pixel at a column and row is asked for and answered on `px_q` (R153) -/
  | read (c r : Nat)
  /-- `px_we` high: `px_d` is written to the pixel at a column and row (R153) -/
  | write (c r : Nat) (b : Bool)
  /-- a key number is on `key_idx` and its answer is sampled on `key_q` (R160) -/
  | query (k : Byte)
  deriving DecidableEq, Repr

/-- The levels on these ports in one cycle; `none` where the spec gives the port no level in that cycle. -/
structure StepPorts where
  dispClr : Bool
  pxRd    : Bool
  pxWe    : Bool
  pxCol   : Option Nat
  pxRow   : Option Nat
  pxD     : Option Bool
  keyIdx  : Option Byte
  deriving DecidableEq, Repr

/-- No strobe high and nothing asked: every cycle that is none of a step's `PortCycle`s (R5). -/
def StepPorts.quiet : StepPorts :=
  { dispClr := false, pxRd := false, pxWe := false, pxCol := none, pxRow := none, pxD := none, keyIdx := none }

/-- The levels of a cycle, port by port. -/
def PortCycle.levels : PortCycle → StepPorts
  | .clear => { StepPorts.quiet with dispClr := true }
  | .read c r => { StepPorts.quiet with pxRd := true, pxCol := some c, pxRow := some r }
  | .write c r b => { StepPorts.quiet with pxWe := true, pxCol := some c, pxRow := some r, pxD := some b }
  | .query k => { StepPorts.quiet with keyIdx := some k }

/-- The cycles of the compositing rule for one pixel: a set sprite bit reads the pixel and then writes its complement; a clear one
neither reads nor writes it (R153). -/
def State.compositeCycles (s : State) (bit : Bool) (c r : Nat) : List PortCycle :=
  if bit then [.read c r, .write c r (!s.pixRead c r)] else []

/-- The cycles of the first `m` pixels of a sprite row, each in the state the pixels before it left (`State.drawPixels`, R151). -/
def State.drawPixelsCycles (s : State) (b : Byte) (c0 r : Nat) : Nat → List PortCycle
  | 0 => []
  | j + 1 =>
    s.drawPixelsCycles b c0 r j ++
      if s.params.dispW ≤ c0 + j then [] else (s.drawPixels b c0 r j).compositeCycles (b.getLsbD (7 - j)) (c0 + j) r

/-- The cycles of the first `m` rows of a sprite, each in the state the rows before it left (`State.drawRows`, R151). -/
def State.drawRowsCycles (s : State) (a c0 r0 : Nat) : Nat → List PortCycle
  | 0 => []
  | r + 1 =>
    s.drawRowsCycles a c0 r0 r ++
      if s.params.dispH ≤ r0 + r then []
      else (s.drawRows a c0 r0 r).drawPixelsCycles (s.readByte (a + r)) c0 (r0 + r) 8

/-- The cycles of a DRW: none if the bound check fails, else those of its draw (R151). -/
def drwCycles (x y : RegIdx) (n : Nibble) (s : State) : List PortCycle :=
  match checkRange s.i.toNat n.toNat with
  | some _ => []
  | none => (s.setReg VF 0x00#8).drawRowsCycles s.i.toNat (s.drawCol x) (s.drawRow y) n.toNat

/-- What the execution of an instruction drives on these ports: only the primitives of R7 that reach a peripheral use them. -/
def portCycles (i : Instr) (s : State) : List PortCycle :=
  match i with
  | .cls => [.clear]
  | .drw x y n => drwCycles x y n s
  | .skp x => [.query (s.reg x)]
  | .sknp x => [.query (s.reg x)]
  | .ret => []
  | .sys _ => []
  | .jp _ => []
  | .call _ => []
  | .seImm _ _ => []
  | .sneImm _ _ => []
  | .seReg _ _ => []
  | .ldImm _ _ => []
  | .addImm _ _ => []
  | .ldReg _ _ => []
  | .orReg _ _ => []
  | .andReg _ _ => []
  | .xorReg _ _ => []
  | .addReg _ _ => []
  | .subReg _ _ => []
  | .shr _ _ => []
  | .subnReg _ _ => []
  | .shl _ _ => []
  | .sneReg _ _ => []
  | .ldI _ => []
  | .jpV0 _ => []
  | .rnd _ _ => []
  | .ldVxDt _ => []
  | .ldVxK _ => []
  | .ldDtVx _ => []
  | .ldStVx _ => []
  | .addI _ => []
  | .ldF _ => []
  | .ldB _ => []
  | .storeRegs _ => []
  | .loadRegs _ => []

end Sys2Proof.Machine
end

