-- ==== Sys2Proof/Machine/Ticks.lean ====
section
/-! DEFINITION. The timer tick, the tick latches and the program-load port (`46_ticks_and_scheduler.md`, `20_memory.md` R51). -/

namespace Sys2Proof.Machine

/-- One count of a timer toward zero; a timer at zero stays there (R25). -/
def countDown (b : Byte) : Byte := if b = 0x00#8 then 0x00#8 else b - 1#8

/-- `TimerStep` (R171): count DT and ST, then `BUZ` follows ST as just updated. -/
def State.timerStep (s : State) : State :=
  { s with dt := countDown s.dt, st := countDown s.st, buz := countDown s.st != 0x00#8 }

/-- The tick latches take the events of this clock edge: `IPEND OR (itick AND run)` and `TPEND OR (ttick AND run)`; an event that
arrives while its latch is set or is being cleared is kept once (R172). -/
def State.latchTicks (s : State) (p : Pins) : State :=
  { s with ipend := s.ipend || (p.itick && p.run), tpend := s.tpend || (p.ttick && p.run) }

/-- The program-load port: while `run = 0` a cycle with `ld_we = 1` writes one byte; while `run = 1` it is ignored (R51). -/
def State.loadPort (s : State) (p : Pins) : State :=
  if !p.run && p.ldWe then s.writeByte p.ldAddr.toNat p.ldData else s

/-- The model's own bookkeeping at a clock edge: the inputs seen now are used up (Log 1). -/
def State.tickCycle (s : State) : State := { s with inputs := s.inputs.tail, cycle := s.cycle + 1 }

end Sys2Proof.Machine
end

