-- ==== Sys2Proof/Machine/Cycle.lean ====
section
/-! DEFINITION. The instruction tick, the scheduling turn and the clock edge around it (`46_ticks_and_scheduler.md`). -/

namespace Sys2Proof.Machine

/-- `f` applied to the next state of an outcome. -/
def mapNext (f : State → State) : Result → Result
  | .next s => .next (f s)
  | .fault r => .fault r
  | .refused r => .refused r

/-- The last address a two-byte fetch can start at: 4094 (R41, R170). -/
abbrev lastFetch : Nat := memSize - 2

/-- `CpuStep` (R170): fetch, advance the PC unconditionally, decode, execute. The fetch bound fault leaves PC where it was; a decode
failure finds it advanced. -/
def cpuStep (s : State) : Result :=
  if lastFetch < s.pc.toNat then .next (s.raise .memBound (BitVec.ofNat 16 (max s.pc.toNat memSize)) s.pc)
  else
    match decodeWord s.fetchWord with
    | .ok i => exec i s.advancePc
    | .error _ => .next (s.advancePc.raise .decodeFailure s.fetchWord s.pc)

/-- A `CpuStep` is enabled (R170). -/
def State.cpuEnabled (s : State) : Bool := s.fcause == .none && !s.waitkey

/-- The scheduling turn (R173): a pending timer tick first, then a pending instruction tick if the CPU is not held, else idle. -/
def schedule (s : State) : Result :=
  if s.tpend then .next ({ s with tpend := false }).timerStep
  else if s.ipend && s.cpuEnabled then cpuStep { s with ipend := false }
  else .next s

/-- What happens at a clock edge with no step in progress: a key strobe that finds a wait pending is the step of this edge, the event
before the cancel (R174, R164); otherwise, while `run = 1`, the scheduler takes its turn (Log 5).

DESIGN CHOICE (Log 6): an edge with such a strobe takes no turn of the scheduler.
DESIGN CHOICE (Log 6): R164 orders an event and a cancel of the same cycle only, and R174 says of strobes that arrive while a step is in
progress only that each takes effect when that step ends. Strobes from different cycles of one such step are shown together at the next
edge, and the event wins there also when the cancel came first.

The turn looks at the latches as the edge finds them (R172, R173): a tick event of this edge's record, which holds those of the later
cycles of the step too, is pending at the next turn (Log 1, DEDUCED). -/
def turn (s : State) : Result :=
  if s.waiting && s.pins.keyEvent then .next s.keyEventStep
  else if s.waiting && s.pins.kwCancel then .next s.keyCancelStep
  else if s.pins.run then schedule s
  else .next s

/-- What a clock edge does beside its turn: the load port (R51), the tick latches (R172), and the inputs used up (Log 1). It comes after
the turn: an event that arrives while the step of the turn is in progress is latched with those of the edge (Log 1, DEDUCED), and no
load-port write falls within a step (R45; one that comes during a step is an edge of its own after it, Log 8, DESIGN CHOICE). -/
def State.endCycle (s : State) (p : Pins) : State := ((s.loadPort p).latchTicks p).tickCycle

/-- What the block drives on the ports to the display and the keypad in the step this edge takes: only a `CpuStep` uses them, and only
its execute phase (R5, R170). That an edge with `run = 0` or `rst = 1` drives nothing, an instruction tick pending or not, is by inference
(Log 5, Log 13, DEDUCED); the cycles within the step and their order are the model's choice (Log 14, DESIGN CHOICE). -/
def State.edgeCycles (s : State) : List PortCycle :=
  if !s.pins.rst && s.pins.run && !s.tpend && s.ipend && s.cpuEnabled then
    if lastFetch < s.pc.toNat then []
    else
      match decodeWord s.fetchWord with
      | .ok i => portCycles i ({ s with ipend := false } : State).advancePc
      | .error _ => []
  else []

/-- One clock edge: reset has priority over all else (R220, Log 13).

DESIGN CHOICE (Log 15): `rst` is looked at only between whole steps. R220 says that a step in progress is abandoned and that the display
is not touched, and leaves open which pixels an abandoned DRW or CLS has already written; in this model the step is always whole or has
not begun, so a partly drawn or partly cleared display after a reset is never admitted. All other state of the block is reset either way. -/
def clockEdge (s : State) : Result :=
  if s.pins.rst then .next s.resetBlock.tickCycle
  else mapNext (fun t => t.endCycle s.pins) (turn s)

/-- The inputs of the next clock edge replaced by those under which its turn is the scheduler's: no reset, `run = 1`, no key strobe;
every other input as it was. -/
def State.cpuTurnPins (s : State) : List Pins :=
  { s.pins with rst := false, run := true, keyEvent := false, kwCancel := false } :: s.inputs.tail

/-- The instruction whose bits are `w` placed so that the very next step runs it (Log 10): its word at the program counter, an
instruction tick pending, no timer tick pending, no hold, and inputs under which the scheduler takes its turn. A program counter that
no fetch can start at is put to the entry point first. -/
def State.placeInsn (s : State) (nbits w : Nat) : State :=
  let pc := if lastFetch < s.pc.toNat then progBase else s.pc
  let t := (s.writeByte pc.toNat (highByte (tableWord nbits w))).writeByte (pc.toNat + 1) (lowByte (tableWord nbits w))
  { t with pc := pc, ipend := true, tpend := false, waitkey := false, fcause := .none, inputs := s.cpuTurnPins }

end Sys2Proof.Machine
end

