-- ==== Sys2Proof/Machine/Step.lean ====
section
/-! DEFINITION. One step of the machine. -/

namespace Sys2Proof.Machine

/-- One step: one rising clock edge at which no step of R8 is in progress (Log 1). -/
def step (s : State) : Host.Outcome State Fault Refusal := clockEdge s

/-- The state with an instruction stored where the next step fetches, everything set so that the next step runs it (Log 10). -/
def State.withFetchWord (s : State) (nbits w : Nat) : State := s.placeInsn nbits w

end Sys2Proof.Machine
end

