-- ==== Sys2Proof/Safety.lean ====
section
/-! DEFINITION. The terms in which claims about runs are stated: which step a clock edge takes, the invariant of reachable states, the
end of a run, what an instruction names as its destination, and the sprite as a set of pixels. -/

namespace Sys2Proof.Machine

/-! ### Which step of R8 a clock edge takes -/

/-- The edge is a `KeyEventStep` that resolves a wait (R163). -/
abbrev KeyEventTurn (s : State) : Prop :=
  s.pins.rst = false ∧ s.waitkey = true ∧ s.fcause = .none ∧ s.pins.keyEvent = true

/-- The edge is a `KeyCancelStep` that abandons a wait; an event in the same cycle would win (R164), and so would, by the model's choice
(Log 6), an event from another cycle of a step that was in progress. -/
abbrev KeyCancelTurn (s : State) : Prop :=
  s.pins.rst = false ∧ s.waitkey = true ∧ s.fcause = .none ∧ s.pins.keyEvent = false ∧ s.pins.kwCancel = true

/-- The edge is a `TimerStep`: a timer tick is pending and the scheduler takes its turn (R173). -/
abbrev TimerTurn (s : State) : Prop :=
  s.pins.rst = false ∧ ¬ KeyEventTurn s ∧ ¬ KeyCancelTurn s ∧ s.pins.run = true ∧ s.tpend = true

/-- The edge is a `CpuStep`: an instruction tick is pending, no timer tick is, and the CPU is not held (R170, R173). -/
abbrev CpuTurn (s : State) : Prop :=
  s.pins.rst = false ∧ s.pins.run = true ∧ s.tpend = false ∧ s.ipend = true ∧ s.fcause = .none ∧ s.waitkey = false

/-- No fault is recorded (R198: "A model should treat a state with `FCAUSE != 0` as faulted and never final"). -/
abbrev Healthy (s : State) : Prop := s.fcause = .none

/-- The end of a run by convention: the program is parked in `JP a` at `a` (R226 (c)). -/
abbrev Parked (a : Addr12) (s : State) : Prop :=
  s.pc = zext16 a ∧ s.pc.toNat ≤ lastFetch ∧ s.fetchWord = 0x1#4 ++ a ∧ s.fcause = .none ∧ s.waitkey = false

/-! ### The invariant (R34) -/

/-- What holds in every reachable state: R34 (a) by the type of `sp`, (b), (c), and beside them the canonical forms of memory and
display, an empty fault record while no fault is recorded, and no key wait pending in a faulted state. -/
structure Inv (s : State) : Prop where
  /-- memory is in canonical form -/
  mem : s.mem.wf
  /-- the display is in canonical form: no pixel outside the grid is lit -/
  display : s.display.wf s.params
  /-- R34 (b) -/
  pc : s.pc.toNat ≤ 0x10FE
  /-- R34 (c): every slot holds 0 or a pushed value -/
  slots : ∀ k : Fin 16, s.slot k = 0#16 ∨ (2 ≤ (s.slot k).toNat ∧ (s.slot k).toNat ≤ memSize)
  /-- the slots below `SP` were written by a CALL (R34 (b), C14) -/
  held : ∀ k : Fin 16, k.val < s.sp.val → s.slot k ≠ 0#16
  /-- `FEPC` and `FINFO` are written only with `FCAUSE` (R30, R190) -/
  record : s.fcause = .none → s.fepc = 0#16 ∧ s.finfo = 0#16
  /-- a faulted machine waits for no key (R164, R198) -/
  noWait : s.fcause ≠ .none → s.waitkey = false

/-! ### What an instruction may write (R20, R21) -/

/-- The instructions that write VF as a flag (the table of R21). -/
def writesFlag : Instr → Bool
  | .addReg _ _ => true
  | .subReg _ _ => true
  | .subnReg _ _ => true
  | .shr _ _ => true
  | .shl _ _ => true
  | .drw _ _ _ => true
  | .cls => false
  | .ret => false
  | .sys _ => false
  | .jp _ => false
  | .call _ => false
  | .seImm _ _ => false
  | .sneImm _ _ => false
  | .seReg _ _ => false
  | .ldImm _ _ => false
  | .addImm _ _ => false
  | .ldReg _ _ => false
  | .orReg _ _ => false
  | .andReg _ _ => false
  | .xorReg _ _ => false
  | .sneReg _ _ => false
  | .ldI _ => false
  | .jpV0 _ => false
  | .rnd _ _ => false
  | .skp _ => false
  | .sknp _ => false
  | .ldVxDt _ => false
  | .ldVxK _ => false
  | .ldDtVx _ => false
  | .ldStVx _ => false
  | .addI _ => false
  | .ldF _ => false
  | .ldB _ => false
  | .storeRegs _ => false
  | .loadRegs _ => false

/-- The registers an instruction names as its destination: the writers listed in R20. LD Vx, K is not among them, since the
register is written by the step that resolves the wait (R162, R163). -/
def namesDest (r : RegIdx) : Instr → Bool
  | .ldImm x _ => r == x
  | .addImm x _ => r == x
  | .ldReg x _ => r == x
  | .orReg x _ => r == x
  | .andReg x _ => r == x
  | .xorReg x _ => r == x
  | .addReg x _ => r == x
  | .subReg x _ => r == x
  | .subnReg x _ => r == x
  | .shr x _ => r == x
  | .shl x _ => r == x
  | .rnd x _ => r == x
  | .ldVxDt x => r == x
  | .loadRegs x => r.toNat ≤ x.toNat
  | .cls => false
  | .ret => false
  | .sys _ => false
  | .jp _ => false
  | .call _ => false
  | .seImm _ _ => false
  | .sneImm _ _ => false
  | .seReg _ _ => false
  | .sneReg _ _ => false
  | .ldI _ => false
  | .jpV0 _ => false
  | .drw _ _ _ => false
  | .skp _ => false
  | .sknp _ => false
  | .ldVxK _ => false
  | .ldDtVx _ => false
  | .ldStVx _ => false
  | .addI _ => false
  | .ldF _ => false
  | .ldB _ => false
  | .storeRegs _ => false

/-! ### The sprite (R151, R153) -/

/-- The sprite bit that falls on pixel (`c`, `r`) when `n` rows at address `a` are drawn from (`c0`, `r0`): bit `7 - (c - c0)` of
the byte at `a + (r - r0)`, and 0 outside the sprite. -/
def spriteBit (s : State) (a c0 r0 n c r : Nat) : Bool :=
  decide (c0 ≤ c ∧ c < c0 + 8 ∧ r0 ≤ r ∧ r < r0 + n) && (s.readByte (a + (r - r0))).getLsbD (7 - (c - c0))

/-- The sprite bit that DRW Vx, Vy, n puts on pixel (`c`, `r`) in a state (R151). -/
def drawnBit (s : State) (x y : RegIdx) (n : Nibble) (c r : Nat) : Bool :=
  spriteBit s s.i.toNat (s.drawCol x) (s.drawRow y) n.toNat c r

/-! ### Program load (R222) -/

/-- The inputs of one load-port write while `run = 0` (R51). -/
def loadPins (a : Addr12) (b : Byte) : Pins :=
  { rst := false, run := false, itick := false, ttick := false, ldWe := true, ldAddr := a, ldData := b,
    keyEvent := false, kwCancel := false, keys := 0#256, rnd := 0#8 }

/-- The inputs that load an image from address `a` on, one byte a clock edge (R222). -/
def loadSchedule : Nat → List Byte → List Pins
  | _, [] => []
  | a, b :: rest => loadPins (BitVec.ofNat 12 a) b :: loadSchedule (a + 1) rest

/-! ### The font (R126): data the host may load at `FONT_BASE`, on whose contents no rule of the core depends -/

/-- Glyphs 0 to 7, five bytes each. -/
def fontLow : List Byte :=
  [0xF0#8, 0x90#8, 0x90#8, 0x90#8, 0xF0#8] ++ [0x20#8, 0x60#8, 0x20#8, 0x20#8, 0x70#8] ++
  [0xF0#8, 0x10#8, 0xF0#8, 0x80#8, 0xF0#8] ++ [0xF0#8, 0x10#8, 0xF0#8, 0x10#8, 0xF0#8] ++
  [0x90#8, 0x90#8, 0xF0#8, 0x10#8, 0x10#8] ++ [0xF0#8, 0x80#8, 0xF0#8, 0x10#8, 0xF0#8] ++
  [0xF0#8, 0x80#8, 0xF0#8, 0x90#8, 0xF0#8] ++ [0xF0#8, 0x10#8, 0x20#8, 0x40#8, 0x40#8]

/-- Glyphs 8 to F, five bytes each. -/
def fontHigh : List Byte :=
  [0xF0#8, 0x90#8, 0xF0#8, 0x90#8, 0xF0#8] ++ [0xF0#8, 0x90#8, 0xF0#8, 0x10#8, 0xF0#8] ++
  [0xF0#8, 0x90#8, 0xF0#8, 0x90#8, 0x90#8] ++ [0xE0#8, 0x90#8, 0xE0#8, 0x90#8, 0xE0#8] ++
  [0xF0#8, 0x80#8, 0x80#8, 0x80#8, 0xF0#8] ++ [0xE0#8, 0x90#8, 0x90#8, 0x90#8, 0xE0#8] ++
  [0xF0#8, 0x80#8, 0xF0#8, 0x80#8, 0xF0#8] ++ [0xF0#8, 0x80#8, 0xF0#8, 0x80#8, 0x80#8]

/-- The 80 bytes of the font: glyph `d` at `FONT_BASE + 5 * d`. -/
def fontTable : List Byte := fontLow ++ fontHigh

/-- The inputs that load the font at `FONT_BASE` (R223 (4)). -/
def fontSchedule (p : Params) : List Pins := loadSchedule p.fontBase.val fontTable

end Sys2Proof.Machine
end

