-- ==== Sys2Proof/Certificates/Slice0/Obligations.lean ====
section
/-! DEFINITION. The statements for the provers. A statement about a next state `t` writes `t = { s with f := t.f }` for "nothing but `f`
changed": every other register, flag, byte of memory, pixel, latch and record is as before. -/

open Sys2Proof Sys2Proof.Machine

/-! ### Control transfer -/

/-- R80, R81: SYS and JP decode from their words and set the PC to the 12-bit address; nothing else changes. -/
def Obligations.JumpAndSystemFormSetThePc : Prop :=
  ∀ (nnn : Addr12) (s : State),
    (nnn ≠ 0x0E0#12 → nnn ≠ 0x0EE#12 → decodeWord (0x0#4 ++ nnn) = .ok (.sys nnn)) ∧
    decodeWord (0x1#4 ++ nnn) = .ok (.jp nnn) ∧
    (∃ t, exec (.sys nnn) s = .next t ∧ t.pc.toNat = nnn.toNat ∧ t = { s with pc := t.pc }) ∧
    (∃ t, exec (.jp nnn) s = .next t ∧ t.pc.toNat = nnn.toNat ∧ t = { s with pc := t.pc })

/-- R84: JP V0 sets the PC to the unreduced sum of the address and `V[0]`. -/
def Obligations.JumpWithOffsetAddsV0 : Prop :=
  ∀ (nnn : Addr12) (s : State),
    decodeWord (0xB#4 ++ nnn) = .ok (.jpV0 nnn) ∧
    ∃ t, exec (.jpV0 nnn) s = .next t ∧ t.pc.toNat = nnn.toNat + (s.reg 0#4).toNat ∧ t = { s with pc := t.pc }

/-- R82, R193: CALL pushes the return address, the PC on entry, and jumps; with a full stack it raises StackOverflow and writes nothing
but the fault record, in which FEPC is the address the CALL was fetched from, two below the PC on entry. -/
def Obligations.CallPushesTheReturnAddress : Prop :=
  ∀ (nnn : Addr12) (s : State),
    decodeWord (0x2#4 ++ nnn) = .ok (.call nnn) ∧
    (s.sp.val < 16 → ∃ t, exec (.call nnn) s = .next t ∧
      t.sp.val = s.sp.val + 1 ∧ t.pc.toNat = nnn.toNat ∧
      (∀ k : Fin 16, t.slot k = if k.val = s.sp.val then s.pc else s.slot k) ∧
      t = { s with pc := t.pc, sp := t.sp, stack := t.stack }) ∧
    (s.sp.val = 16 → exec (.call nnn) s =
      .next { s with fcause := .stackOverflow, finfo := BitVec.ofNat 16 nnn.toNat, fepc := s.pc - 2#16 })

/-- R83, R194: RET decrements SP and then reads the slot; every slot keeps its content; with an empty stack it raises StackUnderflow. -/
def Obligations.ReturnPopsTheReturnAddress : Prop :=
  decodeWord 0x00EE#16 = .ok .ret ∧
  ∀ s : State,
    (∀ k : Fin 16, s.sp.val = k.val + 1 → ∃ t, exec .ret s = .next t ∧
      t.sp.val = k.val ∧ t.pc = s.slot k ∧ t = { s with pc := t.pc, sp := t.sp }) ∧
    (s.sp.val = 0 → exec .ret s = .next { s with fcause := .stackUnderflow, finfo := 0#16, fepc := s.pc - 2#16 })

/-- R85, R86: SE and SNE with an immediate advance the PC by a further 2 or leave it; nothing else changes. -/
def Obligations.ImmediateSkipsCompare : Prop :=
  ∀ (x : RegIdx) (kk : Byte) (s : State),
    decodeWord (0x3#4 ++ x ++ kk) = .ok (.seImm x kk) ∧
    decodeWord (0x4#4 ++ x ++ kk) = .ok (.sneImm x kk) ∧
    (∃ t, exec (.seImm x kk) s = .next t ∧ t = { s with pc := t.pc } ∧
      t.pc.toNat = if (s.reg x).toNat = kk.toNat then (s.pc.toNat + 2) % 2 ^ 16 else s.pc.toNat) ∧
    (∃ t, exec (.sneImm x kk) s = .next t ∧ t = { s with pc := t.pc } ∧
      t.pc.toNat = if (s.reg x).toNat = kk.toNat then s.pc.toNat else (s.pc.toNat + 2) % 2 ^ 16)

/-- R87, R88: SE and SNE with two registers; a word of family 5 or 9 whose trailing nibble is not 0 is illegal. -/
def Obligations.RegisterSkipsCompare : Prop :=
  ∀ (x y : RegIdx) (s : State),
    decodeWord (0x5#4 ++ x ++ y ++ 0#4) = .ok (.seReg x y) ∧
    decodeWord (0x9#4 ++ x ++ y ++ 0#4) = .ok (.sneReg x y) ∧
    (∀ n : Nibble, n ≠ 0#4 →
      decodeWord (0x5#4 ++ x ++ y ++ n) = .error (.illegal (0x5#4 ++ x ++ y ++ n)) ∧
      decodeWord (0x9#4 ++ x ++ y ++ n) = .error (.illegal (0x9#4 ++ x ++ y ++ n))) ∧
    (∃ t, exec (.seReg x y) s = .next t ∧ t = { s with pc := t.pc } ∧
      t.pc.toNat = if (s.reg x).toNat = (s.reg y).toNat then (s.pc.toNat + 2) % 2 ^ 16 else s.pc.toNat) ∧
    (∃ t, exec (.sneReg x y) s = .next t ∧ t = { s with pc := t.pc } ∧
      t.pc.toNat = if (s.reg x).toNat = (s.reg y).toNat then s.pc.toNat else (s.pc.toNat + 2) % 2 ^ 16)

/-! ### Register load, arithmetic and logic -/

/-- R100, R101: LD and ADD with an immediate; the sum wraps modulo 256; no flag: VF is an ordinary register. -/
def Obligations.ImmediateLoadAndAddSetNoFlag : Prop :=
  ∀ (x : RegIdx) (kk : Byte) (s : State),
    decodeWord (0x6#4 ++ x ++ kk) = .ok (.ldImm x kk) ∧
    decodeWord (0x7#4 ++ x ++ kk) = .ok (.addImm x kk) ∧
    (∃ t, exec (.ldImm x kk) s = .next t ∧ t = { s with v := t.v } ∧
      t.reg x = kk ∧ ∀ r, r ≠ x → t.reg r = s.reg r) ∧
    (∃ t, exec (.addImm x kk) s = .next t ∧ t = { s with v := t.v } ∧
      (t.reg x).toNat = ((s.reg x).toNat + kk.toNat) % 256 ∧ ∀ r, r ≠ x → t.reg r = s.reg r)

/-- R102 to R105: register move, OR, AND, XOR, bit by bit; VF is not modified unless it is the destination. -/
def Obligations.MoveAndLogicSetNoFlag : Prop :=
  ∀ (x y : RegIdx) (s : State),
    decodeWord (0x8#4 ++ x ++ y ++ 0x0#4) = .ok (.ldReg x y) ∧
    decodeWord (0x8#4 ++ x ++ y ++ 0x1#4) = .ok (.orReg x y) ∧
    decodeWord (0x8#4 ++ x ++ y ++ 0x2#4) = .ok (.andReg x y) ∧
    decodeWord (0x8#4 ++ x ++ y ++ 0x3#4) = .ok (.xorReg x y) ∧
    (∃ t, exec (.ldReg x y) s = .next t ∧ t = { s with v := t.v } ∧
      t.reg x = s.reg y ∧ ∀ r, r ≠ x → t.reg r = s.reg r) ∧
    (∃ t, exec (.orReg x y) s = .next t ∧ t = { s with v := t.v } ∧
      (∀ k < 8, (t.reg x).getLsbD k = ((s.reg x).getLsbD k || (s.reg y).getLsbD k)) ∧ ∀ r, r ≠ x → t.reg r = s.reg r) ∧
    (∃ t, exec (.andReg x y) s = .next t ∧ t = { s with v := t.v } ∧
      (∀ k < 8, (t.reg x).getLsbD k = ((s.reg x).getLsbD k && (s.reg y).getLsbD k)) ∧ ∀ r, r ≠ x → t.reg r = s.reg r) ∧
    (∃ t, exec (.xorReg x y) s = .next t ∧ t = { s with v := t.v } ∧
      (∀ k < 8, (t.reg x).getLsbD k = ((s.reg x).getLsbD k ^^ (s.reg y).getLsbD k)) ∧ ∀ r, r ≠ x → t.reg r = s.reg r)

/-- R106: the sum modulo 256 in `V[x]`, then the carry in VF; when `x = 15` VF ends as the carry. -/
def Obligations.AddSetsTheCarry : Prop :=
  ∀ (x y : RegIdx) (s : State),
    decodeWord (0x8#4 ++ x ++ y ++ 0x4#4) = .ok (.addReg x y) ∧
    ∃ t, exec (.addReg x y) s = .next t ∧ t = { s with v := t.v } ∧
      (x ≠ VF → (t.reg x).toNat = ((s.reg x).toNat + (s.reg y).toNat) % 256) ∧
      (t.reg VF).toNat = (if 255 < (s.reg x).toNat + (s.reg y).toNat then 1 else 0) ∧
      ∀ r, r ≠ x → r ≠ VF → t.reg r = s.reg r

/-- R107, R109: both subtractions modulo 256, then VF is 1 exactly when the minuend is at least the subtrahend. -/
def Obligations.SubtractSetsNotBorrow : Prop :=
  ∀ (x y : RegIdx) (s : State),
    decodeWord (0x8#4 ++ x ++ y ++ 0x5#4) = .ok (.subReg x y) ∧
    decodeWord (0x8#4 ++ x ++ y ++ 0x7#4) = .ok (.subnReg x y) ∧
    (∃ t, exec (.subReg x y) s = .next t ∧ t = { s with v := t.v } ∧
      (x ≠ VF → (t.reg x).toNat = ((s.reg x).toNat + 256 - (s.reg y).toNat) % 256) ∧
      (t.reg VF).toNat = (if (s.reg y).toNat ≤ (s.reg x).toNat then 1 else 0) ∧
      ∀ r, r ≠ x → r ≠ VF → t.reg r = s.reg r) ∧
    (∃ t, exec (.subnReg x y) s = .next t ∧ t = { s with v := t.v } ∧
      (x ≠ VF → (t.reg x).toNat = ((s.reg y).toNat + 256 - (s.reg x).toNat) % 256) ∧
      (t.reg VF).toNat = (if (s.reg x).toNat ≤ (s.reg y).toNat then 1 else 0) ∧
      ∀ r, r ≠ x → r ≠ VF → t.reg r = s.reg r)

/-- R108, R110: the shifts by one of `V[x]` or `V[y]`, as SHIFT_SRC says, into `V[x]`, then the bit shifted out in VF. -/
def Obligations.ShiftsMoveOneBitOut : Prop :=
  ∀ (x y : RegIdx) (s : State) (v : Byte),
    (s.params.shiftSrc = .vx → v = s.reg x) → (s.params.shiftSrc = .vy → v = s.reg y) →
    decodeWord (0x8#4 ++ x ++ y ++ 0x6#4) = .ok (.shr x y) ∧
    decodeWord (0x8#4 ++ x ++ y ++ 0xE#4) = .ok (.shl x y) ∧
    (∃ t, exec (.shr x y) s = .next t ∧ t = { s with v := t.v } ∧
      (x ≠ VF → (t.reg x).toNat = v.toNat / 2) ∧ (t.reg VF).toNat = v.toNat % 2 ∧
      ∀ r, r ≠ x → r ≠ VF → t.reg r = s.reg r) ∧
    (∃ t, exec (.shl x y) s = .next t ∧ t = { s with v := t.v } ∧
      (x ≠ VF → (t.reg x).toNat = v.toNat * 2 % 256) ∧ (t.reg VF).toNat = v.toNat / 128 ∧
      ∀ r, r ≠ x → r ≠ VF → t.reg r = s.reg r)

/-! ### The I register, BCD, block transfers -/

/-- R120, R121: LD I sets I to the address; ADD I adds modulo 2^16, with no flag and no fault. -/
def Obligations.IndexIsLoadedAndAdded : Prop :=
  ∀ (nnn : Addr12) (x : RegIdx) (s : State),
    decodeWord (0xA#4 ++ nnn) = .ok (.ldI nnn) ∧
    decodeWord (0xF#4 ++ x ++ 0x1E#8) = .ok (.addI x) ∧
    (∃ t, exec (.ldI nnn) s = .next t ∧ t.i.toNat = nnn.toNat ∧ t = { s with i := t.i }) ∧
    (∃ t, exec (.addI x) s = .next t ∧ t.i.toNat = (s.i.toNat + (s.reg x).toNat) % 2 ^ 16 ∧ t = { s with i := t.i })

/-- R122: LD F points I at the glyph of the low nibble, `FONT_BASE + 5 * V[x][3:0]`. -/
def Obligations.IndexPointsAtTheGlyph : Prop :=
  ∀ (x : RegIdx) (s : State),
    decodeWord (0xF#4 ++ x ++ 0x29#8) = .ok (.ldF x) ∧
    ∃ t, exec (.ldF x) s = .next t ∧ t.i.toNat = s.params.fontBase.val + 5 * ((s.reg x).toNat % 16) ∧ t = { s with i := t.i }

/-- R123: LD B writes the three decimal digits of `V[x]` at I, I + 1, I + 2 and no other byte; past the end of memory it raises
MemBound before any byte is written. -/
def Obligations.DecimalDigitsAreStored : Prop :=
  ∀ (x : RegIdx) (s : State),
    decodeWord (0xF#4 ++ x ++ 0x33#8) = .ok (.ldB x) ∧
    (s.i.toNat ≤ 4093 → ∃ t, exec (.ldB x) s = .next t ∧ t = { s with mem := t.mem } ∧
      (s.reg x).toNat = 100 * (t.readByte s.i.toNat).toNat + 10 * (t.readByte (s.i.toNat + 1)).toNat
        + (t.readByte (s.i.toNat + 2)).toNat ∧
      (t.readByte (s.i.toNat + 1)).toNat < 10 ∧ (t.readByte (s.i.toNat + 2)).toNat < 10 ∧
      ∀ a, (a < s.i.toNat ∨ s.i.toNat + 3 ≤ a) → t.readByte a = s.readByte a) ∧
    (4094 ≤ s.i.toNat → exec (.ldB x) s =
      .next { s with fcause := .memBound, finfo := BitVec.ofNat 16 (max s.i.toNat 4096), fepc := s.pc - 2#16 })

/-- R124: LD [I], Vx writes `V[0]` to `V[x]` at I to I + x and no other byte; past the end of memory it raises MemBound before any
byte is written. -/
def Obligations.RegistersAreStored : Prop :=
  ∀ (x : RegIdx) (s : State),
    decodeWord (0xF#4 ++ x ++ 0x55#8) = .ok (.storeRegs x) ∧
    (s.i.toNat + x.toNat ≤ 4095 → ∃ t, exec (.storeRegs x) s = .next t ∧ t = { s with mem := t.mem } ∧
      (∀ k : RegIdx, k.toNat ≤ x.toNat → t.readByte (s.i.toNat + k.toNat) = s.reg k) ∧
      ∀ a, (a < s.i.toNat ∨ s.i.toNat + x.toNat < a) → t.readByte a = s.readByte a) ∧
    (4095 < s.i.toNat + x.toNat → exec (.storeRegs x) s =
      .next { s with fcause := .memBound, finfo := BitVec.ofNat 16 (max s.i.toNat 4096), fepc := s.pc - 2#16 })

/-- R125: LD Vx, [I] reads `V[0]` to `V[x]` from I to I + x and writes no other register; past the end of memory it raises MemBound
before any register is written. -/
def Obligations.RegistersAreLoaded : Prop :=
  ∀ (x : RegIdx) (s : State),
    decodeWord (0xF#4 ++ x ++ 0x65#8) = .ok (.loadRegs x) ∧
    (s.i.toNat + x.toNat ≤ 4095 → ∃ t, exec (.loadRegs x) s = .next t ∧ t = { s with v := t.v } ∧
      (∀ k : RegIdx, k.toNat ≤ x.toNat → t.reg k = s.readByte (s.i.toNat + k.toNat)) ∧
      ∀ k : RegIdx, x.toNat < k.toNat → t.reg k = s.reg k) ∧
    (4095 < s.i.toNat + x.toNat → exec (.loadRegs x) s =
      .next { s with fcause := .memBound, finfo := BitVec.ofNat 16 (max s.i.toNat 4096), fepc := s.pc - 2#16 })

/-! ### Random number and timers -/

/-- R140: RND leaves in `V[x]` the sampled byte ANDed with the immediate, whatever byte the port carries. -/
def Obligations.RandomByteIsMasked : Prop :=
  ∀ (x : RegIdx) (kk b : Byte) (s : State), s.pins.rnd = b →
    decodeWord (0xC#4 ++ x ++ kk) = .ok (.rnd x kk) ∧
    ∃ t, exec (.rnd x kk) s = .next t ∧ t = { s with v := t.v } ∧
      (∀ k < 8, (t.reg x).getLsbD k = (b.getLsbD k && kk.getLsbD k)) ∧ ∀ r, r ≠ x → t.reg r = s.reg r

/-- R141 to R143: the instructions that read DT, write DT and write ST; BUZ is not written. -/
def Obligations.TimersAreReadAndWritten : Prop :=
  ∀ (x : RegIdx) (s : State),
    decodeWord (0xF#4 ++ x ++ 0x07#8) = .ok (.ldVxDt x) ∧
    decodeWord (0xF#4 ++ x ++ 0x15#8) = .ok (.ldDtVx x) ∧
    decodeWord (0xF#4 ++ x ++ 0x18#8) = .ok (.ldStVx x) ∧
    (∃ t, exec (.ldVxDt x) s = .next t ∧ t = { s with v := t.v } ∧ t.reg x = s.dt ∧ ∀ r, r ≠ x → t.reg r = s.reg r) ∧
    (∃ t, exec (.ldDtVx x) s = .next t ∧ t = { s with dt := s.reg x }) ∧
    (∃ t, exec (.ldStVx x) s = .next t ∧ t = { s with st := s.reg x })

/-! ### Display -/

/-- R150: CLS turns every pixel off and changes nothing else. -/
def Obligations.ClearTurnsEveryPixelOff : Prop :=
  decodeWord 0x00E0#16 = .ok .cls ∧
  ∀ s : State, ∃ t, exec .cls s = .next t ∧ t = { s with display := t.display } ∧ ∀ c r, t.pixRead c r = false

/-- R151, R153: DRW XORs every pixel of the grid with the sprite bit that falls on it: rows from I on, the start wrapped into the grid,
the sprite clipped at the right and bottom edges. VF is 1 if some pixel was turned off, else 0. A sprite that reaches past the end of
memory raises MemBound before VF or any pixel is changed. -/
def Obligations.DrawXorsTheSprite : Prop :=
  ∀ (x y : RegIdx) (n : Nibble) (s : State),
    decodeWord (0xD#4 ++ x ++ y ++ n) = .ok (.drw x y n) ∧
    ((n = 0#4 ∨ s.i.toNat + n.toNat ≤ 4096) → ∃ t, exec (.drw x y n) s = .next t ∧
      t = { s with v := t.v, display := t.display } ∧
      (∀ c r, c < s.params.dispW → r < s.params.dispH → t.pixRead c r = (s.pixRead c r ^^
        spriteBit s s.i.toNat ((s.reg x).toNat % s.params.dispW) ((s.reg y).toNat % s.params.dispH) n.toNat c r)) ∧
      (t.reg VF = 0x00#8 ∨ t.reg VF = 0x01#8) ∧
      (t.reg VF = 0x01#8 ↔ ∃ c r, c < s.params.dispW ∧ r < s.params.dispH ∧ s.pixRead c r = true ∧ t.pixRead c r = false) ∧
      ∀ k, k ≠ VF → t.reg k = s.reg k) ∧
    (n ≠ 0#4 → 4096 < s.i.toNat + n.toNat → exec (.drw x y n) s =
      .next { s with fcause := .memBound, finfo := BitVec.ofNat 16 (max s.i.toNat 4096), fepc := s.pc - 2#16 })

/-- R151 corner case (i): the same DRW twice, with `x`, `y` not 15, restores the display exactly; after the second, VF is 1 exactly when
some set sprite bit inside the grid lay over a pixel that was off before the first. The display is taken in canonical form. -/
def Obligations.DrawTwiceRestoresTheDisplay : Prop :=
  ∀ (x y : RegIdx) (n : Nibble) (s : State), s.display.wf s.params → x ≠ VF → y ≠ VF →
    (n = 0#4 ∨ s.i.toNat + n.toNat ≤ 4096) →
    ∃ t u, exec (.drw x y n) s = .next t ∧ exec (.drw x y n) t = .next u ∧ u.display = s.display ∧
      (u.reg VF = 0x01#8 ↔
        ∃ c r, c < s.params.dispW ∧ r < s.params.dispH ∧ drawnBit s x y n c r = true ∧ s.pixRead c r = false)

/-! ### Keypad -/

/-- R160, R161: the key skips ask for the full 8-bit key number; the answers of the keypad are free. -/
def Obligations.KeySkipsAskTheKeypad : Prop :=
  ∀ (x : RegIdx) (s : State) (down : Bool), s.pins.keys.getLsbD (s.reg x).toNat = down →
    decodeWord (0xE#4 ++ x ++ 0x9E#8) = .ok (.skp x) ∧
    decodeWord (0xE#4 ++ x ++ 0xA1#8) = .ok (.sknp x) ∧
    (∃ t, exec (.skp x) s = .next t ∧ t = { s with pc := t.pc } ∧
      t.pc.toNat = if down = true then (s.pc.toNat + 2) % 2 ^ 16 else s.pc.toNat) ∧
    (∃ t, exec (.sknp x) s = .next t ∧ t = { s with pc := t.pc } ∧
      t.pc.toNat = if down = true then s.pc.toNat else (s.pc.toNat + 2) % 2 ^ 16)

/-- R162: LD Vx, K only begins the wait; from then on, for as many edges as come without reset, key event and cancel, whatever ticks
come, no instruction runs: nothing changes but the timers, the buzzer, the latches and, through the load port while `run = 0`, memory. -/
def Obligations.KeyWaitBeginsAndHoldsTheCpu : Prop :=
  ∀ (x : RegIdx) (s : State),
    decodeWord (0xF#4 ++ x ++ 0x0A#8) = .ok (.ldVxK x) ∧
    ∃ t, exec (.ldVxK x) s = .next t ∧ t.waitkey = true ∧ t.waitreg = x ∧ t = { s with waitkey := t.waitkey, waitreg := t.waitreg } ∧
      ∀ ps, (∀ p ∈ ps, p.rst = false ∧ p.keyEvent = false ∧ p.kwCancel = false) →
        ∃ u, Sys2Proof.core.run ps.length { t with inputs := ps } = .next u ∧
          u = { t with dt := u.dt, st := u.st, buz := u.buz, mem := u.mem, ipend := u.ipend, tpend := u.tpend, inputs := u.inputs,
                       cycle := u.cycle } ∧
          ((∀ p ∈ ps, p.run = true) → u.mem = t.mem)

/-- R163: a key transition resolves a pending wait: `V[WAITREG]` is 0x01, WAITKEY is 0, the CPU is enabled again. That the edge takes no
other step, so that DT, ST and BUZ keep their values also with a timer tick pending, is the model's choice (Log 6, DESIGN CHOICE), and so
is that the event wins over a cancel that came earlier during one step in progress; R163 and R174 say neither. -/
def Obligations.KeyEventResolvesTheWait : Prop :=
  ∀ s : State, KeyEventTurn s → ∃ t, step s = .next t ∧
    t.reg s.waitreg = 0x01#8 ∧ (∀ r, r ≠ s.waitreg → t.reg r = s.reg r) ∧
    t = { s with v := t.v, waitkey := false, mem := t.mem, ipend := t.ipend, tpend := t.tpend, inputs := s.inputs.tail,
                 cycle := s.cycle + 1 } ∧
    (s.pins.run = true → t.mem = s.mem)

/-- R164, R195: an abandoned wait becomes PeripheralFailure with FEPC the address of the waiting Fx0A; no register is written.
That the edge takes no other step, so that DT, ST and BUZ keep their values also with a timer tick pending, is the model's choice
(Log 6, DESIGN CHOICE); R164, R174 and R195 do not say it. -/
def Obligations.KeyCancelBecomesAFault : Prop :=
  ∀ s : State, KeyCancelTurn s → ∃ t, step s = .next t ∧
    t.fcause = .peripheralFailure ∧ t.finfo = 0#16 ∧ t.fepc = s.pc - 2#16 ∧
    t = { s with fcause := t.fcause, finfo := t.finfo, fepc := t.fepc, waitkey := false, mem := t.mem, ipend := t.ipend,
                 tpend := t.tpend, inputs := s.inputs.tail, cycle := s.cycle + 1 } ∧
    (s.pins.run = true → t.mem = s.mem)

/-- R163, R164: an event or a cancel that finds no wait pending has no effect: the edge is the same as one without the strobe. That this
holds also at the very edge at which an LD Vx, K begins its wait is the model's choice (Log 6, R174 leaves it open). -/
def Obligations.KeyStrobeWithoutWaitHasNoEffect : Prop :=
  ∀ (s : State) (p : Pins) (rest : List Pins) (e c : Bool), s.inputs = p :: rest → (s.waitkey = false ∨ s.fcause ≠ .none) →
    step { s with inputs := { p with keyEvent := e, kwCancel := c } :: rest } = step s

/-! ### Ticks and the scheduler -/

/-- R171, R26: a TimerStep counts DT and ST down by one, not below zero, and BUZ is 1 exactly when ST, as just updated, is not 0. A key
wait or a recorded fault does not hold it. The latches take the tick events of the edge (R172); that those during the TimerStep are among
them is the model's choice (Log 1, DEDUCED). -/
def Obligations.TimerStepCountsDown : Prop :=
  ∀ s : State, TimerTurn s → ∃ t, step s = .next t ∧
    t.dt.toNat = s.dt.toNat - 1 ∧ t.st.toNat = s.st.toNat - 1 ∧ (t.buz = true ↔ t.st ≠ 0#8) ∧
    t = { s with dt := t.dt, st := t.st, buz := t.buz, ipend := s.ipend || s.pins.itick, tpend := s.pins.ttick,
                 inputs := s.inputs.tail, cycle := s.cycle + 1 }

/-- R172: each latch is set by its event while `run = 1` and cleared only when its tick is serviced; an event in the cycle of the
clearing is kept; a second event merges with the first. Which edges service a tick (`TimerTurn`, `CpuTurn`) is in two points the model's
choice: none while `run = 0` (Log 5), and no timer tick at an edge with an effective key strobe (Log 6). That an event in a later cycle of
the step an edge begins is an event of that edge, pending at the next turn, is the model's choice too (Log 1, DEDUCED). -/
def Obligations.TickLatchesKeepOneEvent : Prop :=
  ∀ s : State, s.pins.rst = false → ∃ t, step s = .next t ∧
    (t.ipend = true ↔ (s.pins.itick = true ∧ s.pins.run = true) ∨ (s.ipend = true ∧ ¬ CpuTurn s)) ∧
    (t.tpend = true ↔ (s.pins.ttick = true ∧ s.pins.run = true) ∨ (s.tpend = true ∧ ¬ TimerTurn s))

/-- R173, R174: an edge with `run = 1`, no reset and no step enabled is idle: nothing changes but the latches. In particular a pending
instruction tick stays pending while a wait or a fault holds the CPU. An edge with `run = 0`, no reset and no effective key strobe is
idle too, whatever ticks are pending: it changes at most the byte the load port writes, and keeps the latches. That no pending tick is
serviced while `run = 0` is the model's choice (Log 5). -/
def Obligations.IdleTurnChangesOnlyTheLatches : Prop :=
  (∀ s : State, s.pins.rst = false → s.pins.run = true → ¬ KeyEventTurn s → ¬ KeyCancelTurn s → ¬ TimerTurn s → ¬ CpuTurn s →
    step s = .next { s with ipend := s.ipend || s.pins.itick, tpend := s.pins.ttick, inputs := s.inputs.tail, cycle := s.cycle + 1 }) ∧
  (∀ s : State, s.pins.rst = false → s.pins.run = false → ¬ KeyEventTurn s → ¬ KeyCancelTurn s → ∃ t, step s = .next t ∧
    t = { s with mem := t.mem, inputs := s.inputs.tail, cycle := s.cycle + 1 } ∧
    (∀ a, ¬ (s.pins.ldWe = true ∧ a = s.pins.ldAddr.toNat) → t.readByte a = s.readByte a) ∧
    (s.pins.ldWe = false → t.mem = s.mem))

/-- R173: with both ticks pending on a healthy CPU the timer tick is serviced first, and the following edge, if it too has `run = 1` and
no new timer event came, services the instruction tick. That turns are taken only while `run = 1` (Log 5) and that an event during the
TimerStep counts as one of its edge (Log 1) are the model's choices, both DEDUCED. -/
def Obligations.TimerTickGoesFirst : Prop :=
  ∀ (s : State) (p q : Pins) (rest : List Pins), s.inputs = p :: q :: rest →
    p.rst = false → p.run = true → p.ttick = false → q.rst = false → q.run = true →
    s.tpend = true → s.ipend = true → s.fcause = .none → s.waitkey = false →
    TimerTurn s ∧ ∃ t, step s = .next t ∧ t.pc = s.pc ∧ t.v = s.v ∧ CpuTurn t

/-- R170: one instruction tick. Past address 4094 the fetch raises MemBound and the PC is not advanced; an illegal word raises
DecodeFailure with the PC advanced; any other word is executed with the PC advanced. Around it the edge only takes the tick events (R172; that those during the step are
among them is Log 1, DEDUCED). That a key strobe at this very edge has no effect also when the instruction is the LD Vx, K that begins the
wait is the model's choice (Log 6, DESIGN CHOICE: R174 leaves it open). -/
def Obligations.StepRunsTheDecodedInstruction : Prop :=
  ∀ s : State, CpuTurn s →
    (4094 < s.pc.toNat → step s = .next { s with
      fcause := .memBound, finfo := BitVec.ofNat 16 (max s.pc.toNat 4096), fepc := s.pc,
      ipend := s.pins.itick, tpend := s.pins.ttick, inputs := s.inputs.tail, cycle := s.cycle + 1 }) ∧
    (∀ e, s.pc.toNat ≤ 4094 → decodeWord (s.readByte s.pc.toNat ++ s.readByte (s.pc.toNat + 1)) = .error e → step s = .next { s with
      pc := s.pc + 2#16, fcause := .decodeFailure, finfo := s.readByte s.pc.toNat ++ s.readByte (s.pc.toNat + 1), fepc := s.pc,
      ipend := s.pins.itick, tpend := s.pins.ttick, inputs := s.inputs.tail, cycle := s.cycle + 1 }) ∧
    (∀ i, s.pc.toNat ≤ 4094 → decodeWord (s.readByte s.pc.toNat ++ s.readByte (s.pc.toNat + 1)) = .ok i →
      ∃ t, exec i { s with ipend := false, pc := s.pc + 2#16 } = .next t ∧
        step s = .next { t with ipend := s.pins.itick, tpend := s.pins.ttick, inputs := s.inputs.tail, cycle := s.cycle + 1 })

/-! ### Faults -/

/-- R191: a fetched illegal word sets FCAUSE, FINFO and FEPC, leaves the PC at `a + 2`, and changes nothing else of the CPU, memory or
display. -/
def Obligations.IllegalWordRaisesDecodeFailure : Prop :=
  ∀ (s : State) (w : Word), CpuTurn s → s.pc.toNat ≤ 4094 → s.fetchWord = w → (∀ i, encode i ≠ w) →
    ∃ t, step s = .next t ∧ t.outputs.fault = true ∧ t.fcause.code.toNat = 1 ∧ t.finfo = w ∧ t.fepc = s.pc ∧
      t.pc.toNat = s.pc.toNat + 2 ∧
      t = { s with pc := t.pc, fcause := t.fcause, finfo := t.finfo, fepc := t.fepc, ipend := t.ipend, tpend := t.tpend,
                   inputs := t.inputs, cycle := t.cycle }

/-- R192: MemBound of the four instructions that access a range, and of the fetch: FINFO is the first address of the range that is out
of range, FEPC the address the instruction was fetched from; memory, registers and display are untouched; only the fetch leaves the PC
where it was. -/
def Obligations.AccessPastMemoryRaisesMemBound : Prop :=
  ∀ (s : State) (x y : RegIdx) (n : Nibble),
    (4093 < s.i.toNat → exec (.ldB x) s =
      .next { s with fcause := .memBound, finfo := BitVec.ofNat 16 (max s.i.toNat 4096), fepc := s.pc - 2#16 }) ∧
    (4095 < s.i.toNat + x.toNat → exec (.storeRegs x) s =
      .next { s with fcause := .memBound, finfo := BitVec.ofNat 16 (max s.i.toNat 4096), fepc := s.pc - 2#16 }) ∧
    (4095 < s.i.toNat + x.toNat → exec (.loadRegs x) s =
      .next { s with fcause := .memBound, finfo := BitVec.ofNat 16 (max s.i.toNat 4096), fepc := s.pc - 2#16 }) ∧
    (1 ≤ n.toNat → 4095 < s.i.toNat + n.toNat - 1 → exec (.drw x y n) s =
      .next { s with fcause := .memBound, finfo := BitVec.ofNat 16 (max s.i.toNat 4096), fepc := s.pc - 2#16 }) ∧
    (CpuTurn s → 4094 < s.pc.toNat → ∃ t, step s = .next t ∧
      t = { s with fcause := .memBound, finfo := BitVec.ofNat 16 (max s.pc.toNat 4096), fepc := s.pc,
                   ipend := t.ipend, tpend := t.tpend, inputs := t.inputs, cycle := t.cycle })

/-- R198: faults are precise. If an instruction tick ends in a recorded fault, FEPC is the address it was fetched from, the PC stands at
that address or two past it, and registers, I, stack, timers, memory and display are as before the step. -/
def Obligations.FaultsArePrecise : Prop :=
  ∀ s t : State, CpuTurn s → step s = .next t → t.fcause ≠ .none →
    t.fepc = s.pc ∧ (t.pc = s.pc ∨ t.pc = s.pc + 2#16) ∧
    t = { s with pc := t.pc, fcause := t.fcause, finfo := t.finfo, fepc := t.fepc, ipend := t.ipend, tpend := t.tpend,
                 inputs := t.inputs, cycle := t.cycle }

/-- R198, R199: once a fault is recorded, whatever the inputs, an edge without reset changes nothing but the timers, the buzzer, the
latches and, through the load port while `run = 0`, memory; the record itself never changes. -/
def Obligations.RecordedFaultHoldsTheCpu : Prop :=
  ∀ s : State, s.fcause ≠ .none → s.pins.rst = false → ∃ t, step s = .next t ∧
    t = { s with dt := t.dt, st := t.st, buz := t.buz, mem := t.mem, ipend := t.ipend, tpend := t.tpend, inputs := t.inputs,
                 cycle := t.cycle } ∧
    (s.pins.run = true → t.mem = s.mem)

/-- R5, R190: what the output ports show. In every state the fault port is high exactly when the code of FCAUSE is not 0, the codes 6 and 7
are never produced (Log 9), and the other registered ports show their state bits. Within a step the ports to the display and the keypad
are driven by an instruction tick alone: CLS pulses `disp_clr` once; SKP and SKNP present the full 8-bit `V[x]` on `key_idx`; DRW, from
top to bottom and from left to right, reads and then writes the complement of each pixel of the grid under a set sprite bit, and no
other pixel; every other instruction, and a DRW whose bound check fails, drives none of them. How many cycles lie between two of these
is open (Log 14).

Three points are the model's choice, not the spec's: that an instruction tick pending while `run = 0` is not serviced, so that such an
edge drives nothing (Log 5, DEDUCED: R173 does not speak of `run`); that an edge with `rst = 1` takes no step and drives nothing (Log 13,
DEDUCED); and that the uses of a step are one cycle each in the order of its pseudocode, in a draw each pixel's read before its write and
the pixels by rows from the top and from the left (Log 14, DESIGN CHOICE: the spec gives R151's steps and leaves their cycles open). -/
def Obligations.OutputPortsFollowStateAndStep : Prop :=
  (∀ s : State, (s.outputs.fault = true ↔ s.outputs.fcause ≠ 0#3) ∧ s.outputs.fcause.toNat ≤ 5 ∧
    s.outputs.buzzer = s.buz ∧ s.outputs.waitkey = s.waitkey ∧ s.outputs.fepc = s.fepc ∧ s.outputs.finfo = s.finfo) ∧
  (∀ s : State, ¬ CpuTurn s → s.edgeCycles = []) ∧
  (∀ s : State, CpuTurn s → 4094 < s.pc.toNat → s.edgeCycles = []) ∧
  (∀ (s : State) (e : DecodeError), CpuTurn s → s.pc.toNat ≤ 4094 → decodeWord s.fetchWord = .error e → s.edgeCycles = []) ∧
  (∀ (s : State) (i : Instr), CpuTurn s → s.pc.toNat ≤ 4094 → decodeWord s.fetchWord = .ok i →
    s.edgeCycles = portCycles i { s with ipend := false, pc := s.pc + 2#16 }) ∧
  (∀ s : State, portCycles .cls s = [.clear]) ∧
  (∀ (x : RegIdx) (s : State), portCycles (.skp x) s = [.query (s.reg x)] ∧ portCycles (.sknp x) s = [.query (s.reg x)]) ∧
  (∀ (x y : RegIdx) (n : Nibble) (s : State), (n = 0#4 ∨ s.i.toNat + n.toNat ≤ 4096) → ∃ pixels : List (Nat × Nat),
    pixels.Pairwise (fun p q => p.2 < q.2 ∨ p.2 = q.2 ∧ p.1 < q.1) ∧
    (∀ c r, (c, r) ∈ pixels ↔ c < s.params.dispW ∧ r < s.params.dispH ∧ drawnBit s x y n c r = true) ∧
    portCycles (.drw x y n) s = pixels.flatMap fun p => [.read p.1 p.2, .write p.1 p.2 (!s.pixRead p.1 p.2)]) ∧
  (∀ (x y : RegIdx) (n : Nibble) (s : State), n ≠ 0#4 → 4096 < s.i.toNat + n.toNat → portCycles (.drw x y n) s = []) ∧
  (∀ (i : Instr) (s : State), i ≠ .cls → (∀ x, i ≠ .skp x) → (∀ x, i ≠ .sknp x) → (∀ x y n, i ≠ .drw x y n) → portCycles i s = [])

/-! ### Reset and program load -/

/-- R220: an edge with `rst = 1` gives every piece of state inside the block its value of R33, whatever went before, and does not touch
the display. -/
def Obligations.ResetRestoresTheBlock : Prop :=
  ∀ s : State, s.pins.rst = true → ∃ t, step s = .next t ∧
    (∀ r, t.reg r = 0#8) ∧ (∀ k, t.slot k = 0#16) ∧ (∀ a, t.readByte a = 0#8) ∧ t.sp.val = 0 ∧ t.pc.toNat = 512 ∧ t.i = 0#16 ∧
    t.dt = 0#8 ∧ t.st = 0#8 ∧ t.buz = false ∧ t.ipend = false ∧ t.tpend = false ∧ t.waitkey = false ∧ t.waitreg = 0#4 ∧
    t.fcause = .none ∧ t.fepc = 0#16 ∧ t.finfo = 0#16 ∧ t.display = s.display ∧ t.params = s.params

/-- R33: the values of the state right after reset that the spec states. Of the display, the parameters and the model's own fields this
says nothing: their values in `State.reset` are the model's choice (Log 1, 3, 4). -/
def Obligations.StateAfterReset : Prop :=
  (∀ r, State.reset.reg r = 0#8) ∧ (∀ k, State.reset.slot k = 0#16) ∧ (∀ a, State.reset.readByte a = 0#8) ∧
  State.reset.sp.val = 0 ∧ State.reset.pc.toNat = 512 ∧ State.reset.i = 0#16 ∧ State.reset.dt = 0#8 ∧ State.reset.st = 0#8 ∧
  State.reset.buz = false ∧ State.reset.ipend = false ∧ State.reset.tpend = false ∧ State.reset.waitkey = false ∧
  State.reset.waitreg = 0#4 ∧ State.reset.fcause = .none ∧ State.reset.fepc = 0#16 ∧ State.reset.finfo = 0#16

/-- R51, R48: while `run = 0` a cycle with `ld_we = 1` writes one byte of memory and no other, and one with `ld_we = 0` writes none; while
`run = 1` the port is ignored: the edge is the same whatever the port carries. Two points are the model's choice: that at an edge with
`run = 0` no pending instruction tick is serviced, so that no byte but the port's changes also when one is pending (Log 5, DEDUCED: R173
does not speak of `run`), and that the port acts in a pause of a run as after reset (Log 8, DEDUCED), a write during a step being an edge
of its own after that step (Log 8, DESIGN CHOICE). -/
def Obligations.LoadPortWritesOnlyWhilePaused : Prop :=
  (∀ s : State, s.pins.rst = false → s.pins.run = false → ∃ t, step s = .next t ∧
    ∀ a, t.readByte a = if s.pins.ldWe = true ∧ a = s.pins.ldAddr.toNat then s.pins.ldData else s.readByte a) ∧
  (∀ (s : State) (p : Pins) (rest : List Pins) (we : Bool) (addr : Addr12) (data : Byte), s.inputs = p :: rest → p.run = true →
    step { s with inputs := { p with ldWe := we, ldAddr := addr, ldData := data } :: rest } = step s)

/-- R222: an image of at most 3584 bytes written through the load port while `run = 0` stands in memory from address 512 on, and nothing
else of the machine has changed. For a state with a tick pending this rests on the model's choice that none is serviced while `run = 0`
(Log 5), and for a load in a pause of a run on its choice that the port acts there as after reset (Log 8). -/
def Obligations.LoadedImageStandsAt512 : Prop :=
  ∀ (img : List Byte) (s : State) (rest : List Pins), img.length ≤ 3584 → s.inputs = loadSchedule 512 img ++ rest →
    ∃ t, Sys2Proof.core.run img.length s = .next t ∧ t.inputs = rest ∧
      (∀ (k : Nat) (h : k < img.length), t.readByte (512 + k) = img[k]) ∧
      (∀ a, (a < 512 ∨ 512 + img.length ≤ a) → t.readByte a = s.readByte a) ∧
      t = { s with mem := t.mem, inputs := t.inputs, cycle := t.cycle }

/-! ### Encoding -/

/-- R71: decoding the word of a well-formed instruction gives the instruction back, with every operand. -/
def Obligations.DecodeInvertsEncode : Prop :=
  ∀ i : Instr, i.wellFormed = true → decodeWord (encode i) = .ok i

/-- The other direction: a word that decodes is the word of the instruction it decodes to, and that instruction is well formed; so every
legal word has exactly one meaning and no bit of it is dropped. -/
def Obligations.EncodeInvertsDecode : Prop :=
  ∀ (w : Word) (i : Instr), decodeWord w = .ok i → i.wellFormed = true ∧ encode i = w

/-- R64: the decoder gives the first row of the opcode map whose masked bits the word matches, and no word that matches no row decodes. -/
def Obligations.DecoderAgreesWithTheOpcodeMap : Prop :=
  ∀ w : Word, decodeWord w = match tableDecode w with
    | some i => .ok i
    | none => .error (.illegal w)

/-- R69: the illegal words, family by family. -/
def Obligations.IllegalWordsByFamily : Prop :=
  ∀ w : Word, decodeWord w = .error (.illegal w) ↔
    (w.toNat / 4096 = 0x5 ∧ w.toNat % 16 ≠ 0) ∨
    (w.toNat / 4096 = 0x8 ∧ w.toNat % 16 ∈ [0x8, 0x9, 0xA, 0xB, 0xC, 0xD, 0xF]) ∨
    (w.toNat / 4096 = 0x9 ∧ w.toNat % 16 ≠ 0) ∨
    (w.toNat / 4096 = 0xE ∧ w.toNat % 256 ∉ [0x9E, 0xA1]) ∨
    (w.toNat / 4096 = 0xF ∧ w.toNat % 256 ∉ [0x07, 0x0A, 0x15, 0x18, 0x1E, 0x29, 0x33, 0x55, 0x65])

/-- R65 and R64: words of the spec's own decoder vectors (`95_test_vectors.md` 2.1), written out, and family 0 as a whole. -/
def Obligations.WordsDecodeAsTheSpecSays : Prop :=
  decodeWord 0x8124#16 = .ok (.addReg 1#4 2#4) ∧ decodeWord 0xD015#16 = .ok (.drw 0#4 1#4 5#4) ∧
  decodeWord 0xF633#16 = .ok (.ldB 6#4) ∧ decodeWord 0xEAA1#16 = .ok (.sknp 10#4) ∧ decodeWord 0x3A55#16 = .ok (.seImm 10#4 0x55#8) ∧
  decodeWord 0x8AB8#16 = .error (.illegal 0x8AB8#16) ∧
  ∀ nnn : Addr12, decodeWord (0x0#4 ++ nnn) =
    .ok (if nnn = 0x0E0#12 then .cls else if nnn = 0x0EE#12 then .ret else .sys nnn)

/-! ### Invariants and whole-machine rules -/

/-- R34 and the canonical forms: every step from a state that has the invariant gives a state that has it, whatever the inputs. -/
def Obligations.EveryStepKeepsTheInvariant : Prop :=
  ∀ s t : State, Inv s → step s = .next t → Inv t

/-- The state after reset has the invariant, whatever pixels are lit at launch. -/
def Obligations.StateAfterResetHasTheInvariant : Prop := Inv State.reset

/-- R226, R209: there is no halt: a run of any number of edges from any state, under any inputs, goes on to a next state; and no step
ever changes the parameters. -/
def Obligations.MachineNeverStops : Prop :=
  ∀ (k : Nat) (s : State), ∃ t, Sys2Proof.core.run k s = .next t ∧ t.params = s.params

/-- R201: every instruction is available at all times: in every state each of the 35 executes to a next state. -/
def Obligations.EveryInstructionExecutesInEveryState : Prop :=
  ∀ (i : Instr) (s : State), ∃ t, exec i s = .next t ∧ (t.fcause = s.fcause ∨ t = { s with fcause := t.fcause, finfo := t.finfo, fepc := t.fepc })

/-- R40: no instruction but LD B and LD [I] writes memory, and these write only the bytes of their own range. -/
def Obligations.OnlyStoresWriteMemory : Prop :=
  ∀ (i : Instr) (s t : State), exec i s = .next t → ∀ a, t.readByte a ≠ s.readByte a →
    (∃ x, i = .ldB x ∧ s.i.toNat ≤ a ∧ a < s.i.toNat + 3 ∧ a ≤ 4095) ∨
    (∃ x, i = .storeRegs x ∧ s.i.toNat ≤ a ∧ a ≤ s.i.toNat + x.toNat ∧ a ≤ 4095)

/-- R24: no instruction but CALL and RET touches the stack or its pointer, and RET changes no slot. -/
def Obligations.OnlyCallAndReturnTouchTheStack : Prop :=
  ∀ (i : Instr) (s t : State), exec i s = .next t →
    (t.sp ≠ s.sp → i = .ret ∨ ∃ nnn, i = .call nnn) ∧ (t.stack ≠ s.stack → ∃ nnn, i = .call nnn)

/-- R20: a register changes only if the instruction names it as its destination, or if it is VF and the instruction sets a flag. -/
def Obligations.OnlyNamedRegistersChange : Prop :=
  ∀ (i : Instr) (s t : State) (r : RegIdx), exec i s = .next t → t.reg r ≠ s.reg r →
    namesDest r i = true ∨ (r = VF ∧ writesFlag i = true)

/-- R21: a flag-setting instruction that raises no fault leaves 0x00 or 0x01 in VF; every other instruction leaves VF unchanged unless it
names `V[15]` as its destination. -/
def Obligations.FlagRegisterHoldsZeroOrOne : Prop :=
  ∀ (i : Instr) (s t : State), exec i s = .next t → s.fcause = .none →
    (writesFlag i = true → t.fcause = .none → t.reg VF = 0x00#8 ∨ t.reg VF = 0x01#8) ∧
    (writesFlag i = false → namesDest VF i = false → t.reg VF = s.reg VF)

/-- R23, R25, R29, R31: the only writers among the instructions of I, DT, ST, the wait and the display. -/
def Obligations.SpecialRegistersHaveTheirWriters : Prop :=
  ∀ (i : Instr) (s t : State), exec i s = .next t →
    (t.i ≠ s.i → (∃ nnn, i = .ldI nnn) ∨ (∃ x, i = .addI x) ∨ ∃ x, i = .ldF x) ∧
    (t.dt ≠ s.dt → ∃ x, i = .ldDtVx x) ∧ (t.st ≠ s.st → ∃ x, i = .ldStVx x) ∧
    (t.waitkey ≠ s.waitkey ∨ t.waitreg ≠ s.waitreg → ∃ x, i = .ldVxK x) ∧
    (t.display ≠ s.display → i = .cls ∨ ∃ x y n, i = .drw x y n)

/-- R26, R28, R4: no instruction writes BUZ, the tick latches or the parameters, and none looks past the inputs of its own edge: with
other inputs to come, or another count of edges, but the same inputs at this edge, it does the same. -/
def Obligations.HiddenStateIsOutOfReach : Prop :=
  ∀ (i : Instr) (s t : State), exec i s = .next t →
    t.buz = s.buz ∧ t.ipend = s.ipend ∧ t.tpend = s.tpend ∧ t.params = s.params ∧ t.inputs = s.inputs ∧ t.cycle = s.cycle ∧
    ∀ (ps : List Pins) (c : Nat), ({ s with inputs := ps, cycle := c } : State).pins = s.pins →
      exec i { s with inputs := ps, cycle := c } = .next { t with inputs := ps, cycle := c }

/-- R140, R160, R161: no instruction but RND, SKP and SKNP depends on the inputs in `Pins`: any other does the same whatever they are.
Of R5's input ports `px_q` is the exception: it is not among them, since the answer to a pixel read is the display grid of the state (R31,
R203, Log 14), and DRW depends on it (R153). (`key_event` reaches a register by R163 and the load port memory by R51, which are no
instructions.) -/
def Obligations.InputsReachOnlyThreeInstructions : Prop :=
  ∀ (i : Instr) (s t : State) (ps : List Pins) (c : Nat),
    (∀ x kk, i ≠ .rnd x kk) → (∀ x, i ≠ .skp x) → (∀ x, i ≠ .sknp x) → exec i s = .next t →
    exec i { s with inputs := ps, cycle := c } = .next { t with inputs := ps, cycle := c }

/-- C1, R82, R83: a CALL and a RET that follows it come back to the instruction after the CALL with the stack pointer restored. -/
def Obligations.ReturnComesBackToTheCall : Prop :=
  ∀ (nnn : Addr12) (s : State), s.sp.val < 16 →
    ∃ t u, exec (.call nnn) s = .next t ∧ exec .ret { t with pc := t.pc + 2#16 } = .next u ∧ u.pc = s.pc ∧ u.sp = s.sp

/-- R124, R125 (source property S7): registers stored and loaded back from the same address are restored, whatever the registers held
in between. -/
def Obligations.LoadRestoresStoredRegisters : Prop :=
  ∀ (x : RegIdx) (s : State) (w : Vector Byte 16), s.i.toNat + x.toNat ≤ 4095 →
    ∃ t u, exec (.storeRegs x) s = .next t ∧ exec (.loadRegs x) { t with v := w } = .next u ∧
      ∀ k : RegIdx, (k.toNat ≤ x.toNat → u.reg k = s.reg k) ∧ (x.toNat < k.toNat → u.reg k = ({ s with v := w } : State).reg k)

/-- R50: a store is seen by the next fetch: after LD [I] with I at the PC, the word fetched there is `V[0] ++ V[1]`. -/
def Obligations.StoresReachTheNextFetch : Prop :=
  ∀ (x : RegIdx) (s : State), 1 ≤ x.toNat → s.i = s.pc → s.i.toNat + x.toNat ≤ 4095 →
    ∃ t, exec (.storeRegs x) s = .next t ∧ t.pc = s.pc ∧ t.fetchWord = s.reg 0#4 ++ s.reg 1#4

/-- R226 (c): an instruction tick of a parked program leaves all CPU state, memory and display unchanged, and the program parked. -/
def Obligations.ParkedProgramStaysParked : Prop :=
  ∀ (a : Addr12) (s : State), Parked a s → CpuTurn s → ∃ t, step s = .next t ∧ Parked a t ∧
    t = { s with ipend := t.ipend, tpend := t.tpend, inputs := t.inputs, cycle := t.cycle }
end

