-- ==== Sys2Proof/Laws/State.lean ====
section
/-! SUPPORT. One lemma per field per update: what each named operation leaves in each field of the state, and in each reading of it. -/

namespace Sys2Proof.Machine

/-! ### setReg -/

@[simp] theorem setReg_v (s : State) (r : RegIdx) (b : Byte) : (s.setReg r b).v = s.v.set r.toNat b r.isLt := rfl
@[simp] theorem setReg_pc (s : State) (r : RegIdx) (b : Byte) : (s.setReg r b).pc = s.pc := rfl
@[simp] theorem setReg_i (s : State) (r : RegIdx) (b : Byte) : (s.setReg r b).i = s.i := rfl
@[simp] theorem setReg_stack (s : State) (r : RegIdx) (b : Byte) : (s.setReg r b).stack = s.stack := rfl
@[simp] theorem setReg_sp (s : State) (r : RegIdx) (b : Byte) : (s.setReg r b).sp = s.sp := rfl
@[simp] theorem setReg_dt (s : State) (r : RegIdx) (b : Byte) : (s.setReg r b).dt = s.dt := rfl
@[simp] theorem setReg_st (s : State) (r : RegIdx) (b : Byte) : (s.setReg r b).st = s.st := rfl
@[simp] theorem setReg_buz (s : State) (r : RegIdx) (b : Byte) : (s.setReg r b).buz = s.buz := rfl
@[simp] theorem setReg_mem (s : State) (r : RegIdx) (b : Byte) : (s.setReg r b).mem = s.mem := rfl
@[simp] theorem setReg_ipend (s : State) (r : RegIdx) (b : Byte) : (s.setReg r b).ipend = s.ipend := rfl
@[simp] theorem setReg_tpend (s : State) (r : RegIdx) (b : Byte) : (s.setReg r b).tpend = s.tpend := rfl
@[simp] theorem setReg_waitkey (s : State) (r : RegIdx) (b : Byte) : (s.setReg r b).waitkey = s.waitkey := rfl
@[simp] theorem setReg_waitreg (s : State) (r : RegIdx) (b : Byte) : (s.setReg r b).waitreg = s.waitreg := rfl
@[simp] theorem setReg_fcause (s : State) (r : RegIdx) (b : Byte) : (s.setReg r b).fcause = s.fcause := rfl
@[simp] theorem setReg_fepc (s : State) (r : RegIdx) (b : Byte) : (s.setReg r b).fepc = s.fepc := rfl
@[simp] theorem setReg_finfo (s : State) (r : RegIdx) (b : Byte) : (s.setReg r b).finfo = s.finfo := rfl
@[simp] theorem setReg_display (s : State) (r : RegIdx) (b : Byte) : (s.setReg r b).display = s.display := rfl
@[simp] theorem setReg_params (s : State) (r : RegIdx) (b : Byte) : (s.setReg r b).params = s.params := rfl
@[simp] theorem setReg_inputs (s : State) (r : RegIdx) (b : Byte) : (s.setReg r b).inputs = s.inputs := rfl
@[simp] theorem setReg_cycle (s : State) (r : RegIdx) (b : Byte) : (s.setReg r b).cycle = s.cycle := rfl
@[simp] theorem setReg_readByte (s : State) (r : RegIdx) (b : Byte) (a' : Nat) : (s.setReg r b).readByte a' = s.readByte a' := rfl
@[simp] theorem setReg_pixRead (s : State) (r : RegIdx) (b : Byte) (c' r' : Nat) : (s.setReg r b).pixRead c' r' = s.pixRead c' r' := rfl
@[simp] theorem setReg_pins (s : State) (r : RegIdx) (b : Byte) : (s.setReg r b).pins = s.pins := rfl
@[simp] theorem setReg_slot (s : State) (r : RegIdx) (b : Byte) (k : Fin 16) : (s.setReg r b).slot k = s.slot k := rfl

/-! ### setPc -/

@[simp] theorem setPc_v (s : State) (w : Word) : (s.setPc w).v = s.v := rfl
@[simp] theorem setPc_pc (s : State) (w : Word) : (s.setPc w).pc = w := rfl
@[simp] theorem setPc_i (s : State) (w : Word) : (s.setPc w).i = s.i := rfl
@[simp] theorem setPc_stack (s : State) (w : Word) : (s.setPc w).stack = s.stack := rfl
@[simp] theorem setPc_sp (s : State) (w : Word) : (s.setPc w).sp = s.sp := rfl
@[simp] theorem setPc_dt (s : State) (w : Word) : (s.setPc w).dt = s.dt := rfl
@[simp] theorem setPc_st (s : State) (w : Word) : (s.setPc w).st = s.st := rfl
@[simp] theorem setPc_buz (s : State) (w : Word) : (s.setPc w).buz = s.buz := rfl
@[simp] theorem setPc_mem (s : State) (w : Word) : (s.setPc w).mem = s.mem := rfl
@[simp] theorem setPc_ipend (s : State) (w : Word) : (s.setPc w).ipend = s.ipend := rfl
@[simp] theorem setPc_tpend (s : State) (w : Word) : (s.setPc w).tpend = s.tpend := rfl
@[simp] theorem setPc_waitkey (s : State) (w : Word) : (s.setPc w).waitkey = s.waitkey := rfl
@[simp] theorem setPc_waitreg (s : State) (w : Word) : (s.setPc w).waitreg = s.waitreg := rfl
@[simp] theorem setPc_fcause (s : State) (w : Word) : (s.setPc w).fcause = s.fcause := rfl
@[simp] theorem setPc_fepc (s : State) (w : Word) : (s.setPc w).fepc = s.fepc := rfl
@[simp] theorem setPc_finfo (s : State) (w : Word) : (s.setPc w).finfo = s.finfo := rfl
@[simp] theorem setPc_display (s : State) (w : Word) : (s.setPc w).display = s.display := rfl
@[simp] theorem setPc_params (s : State) (w : Word) : (s.setPc w).params = s.params := rfl
@[simp] theorem setPc_inputs (s : State) (w : Word) : (s.setPc w).inputs = s.inputs := rfl
@[simp] theorem setPc_cycle (s : State) (w : Word) : (s.setPc w).cycle = s.cycle := rfl
@[simp] theorem setPc_reg (s : State) (w : Word) (r' : RegIdx) : (s.setPc w).reg r' = s.reg r' := rfl
@[simp] theorem setPc_readByte (s : State) (w : Word) (a' : Nat) : (s.setPc w).readByte a' = s.readByte a' := rfl
@[simp] theorem setPc_pixRead (s : State) (w : Word) (c' r' : Nat) : (s.setPc w).pixRead c' r' = s.pixRead c' r' := rfl
@[simp] theorem setPc_pins (s : State) (w : Word) : (s.setPc w).pins = s.pins := rfl
@[simp] theorem setPc_slot (s : State) (w : Word) (k : Fin 16) : (s.setPc w).slot k = s.slot k := rfl

/-! ### advancePc -/

@[simp] theorem advancePc_v (s : State) : (s.advancePc).v = s.v := rfl
@[simp] theorem advancePc_pc (s : State) : (s.advancePc).pc = s.pc + 2#16 := rfl
@[simp] theorem advancePc_i (s : State) : (s.advancePc).i = s.i := rfl
@[simp] theorem advancePc_stack (s : State) : (s.advancePc).stack = s.stack := rfl
@[simp] theorem advancePc_sp (s : State) : (s.advancePc).sp = s.sp := rfl
@[simp] theorem advancePc_dt (s : State) : (s.advancePc).dt = s.dt := rfl
@[simp] theorem advancePc_st (s : State) : (s.advancePc).st = s.st := rfl
@[simp] theorem advancePc_buz (s : State) : (s.advancePc).buz = s.buz := rfl
@[simp] theorem advancePc_mem (s : State) : (s.advancePc).mem = s.mem := rfl
@[simp] theorem advancePc_ipend (s : State) : (s.advancePc).ipend = s.ipend := rfl
@[simp] theorem advancePc_tpend (s : State) : (s.advancePc).tpend = s.tpend := rfl
@[simp] theorem advancePc_waitkey (s : State) : (s.advancePc).waitkey = s.waitkey := rfl
@[simp] theorem advancePc_waitreg (s : State) : (s.advancePc).waitreg = s.waitreg := rfl
@[simp] theorem advancePc_fcause (s : State) : (s.advancePc).fcause = s.fcause := rfl
@[simp] theorem advancePc_fepc (s : State) : (s.advancePc).fepc = s.fepc := rfl
@[simp] theorem advancePc_finfo (s : State) : (s.advancePc).finfo = s.finfo := rfl
@[simp] theorem advancePc_display (s : State) : (s.advancePc).display = s.display := rfl
@[simp] theorem advancePc_params (s : State) : (s.advancePc).params = s.params := rfl
@[simp] theorem advancePc_inputs (s : State) : (s.advancePc).inputs = s.inputs := rfl
@[simp] theorem advancePc_cycle (s : State) : (s.advancePc).cycle = s.cycle := rfl
@[simp] theorem advancePc_reg (s : State) (r' : RegIdx) : (s.advancePc).reg r' = s.reg r' := rfl
@[simp] theorem advancePc_readByte (s : State) (a' : Nat) : (s.advancePc).readByte a' = s.readByte a' := rfl
@[simp] theorem advancePc_pixRead (s : State) (c' r' : Nat) : (s.advancePc).pixRead c' r' = s.pixRead c' r' := rfl
@[simp] theorem advancePc_pins (s : State) : (s.advancePc).pins = s.pins := rfl
@[simp] theorem advancePc_slot (s : State) (k : Fin 16) : (s.advancePc).slot k = s.slot k := rfl

/-! ### setI -/

@[simp] theorem setI_v (s : State) (w : Word) : (s.setI w).v = s.v := rfl
@[simp] theorem setI_pc (s : State) (w : Word) : (s.setI w).pc = s.pc := rfl
@[simp] theorem setI_i (s : State) (w : Word) : (s.setI w).i = w := rfl
@[simp] theorem setI_stack (s : State) (w : Word) : (s.setI w).stack = s.stack := rfl
@[simp] theorem setI_sp (s : State) (w : Word) : (s.setI w).sp = s.sp := rfl
@[simp] theorem setI_dt (s : State) (w : Word) : (s.setI w).dt = s.dt := rfl
@[simp] theorem setI_st (s : State) (w : Word) : (s.setI w).st = s.st := rfl
@[simp] theorem setI_buz (s : State) (w : Word) : (s.setI w).buz = s.buz := rfl
@[simp] theorem setI_mem (s : State) (w : Word) : (s.setI w).mem = s.mem := rfl
@[simp] theorem setI_ipend (s : State) (w : Word) : (s.setI w).ipend = s.ipend := rfl
@[simp] theorem setI_tpend (s : State) (w : Word) : (s.setI w).tpend = s.tpend := rfl
@[simp] theorem setI_waitkey (s : State) (w : Word) : (s.setI w).waitkey = s.waitkey := rfl
@[simp] theorem setI_waitreg (s : State) (w : Word) : (s.setI w).waitreg = s.waitreg := rfl
@[simp] theorem setI_fcause (s : State) (w : Word) : (s.setI w).fcause = s.fcause := rfl
@[simp] theorem setI_fepc (s : State) (w : Word) : (s.setI w).fepc = s.fepc := rfl
@[simp] theorem setI_finfo (s : State) (w : Word) : (s.setI w).finfo = s.finfo := rfl
@[simp] theorem setI_display (s : State) (w : Word) : (s.setI w).display = s.display := rfl
@[simp] theorem setI_params (s : State) (w : Word) : (s.setI w).params = s.params := rfl
@[simp] theorem setI_inputs (s : State) (w : Word) : (s.setI w).inputs = s.inputs := rfl
@[simp] theorem setI_cycle (s : State) (w : Word) : (s.setI w).cycle = s.cycle := rfl
@[simp] theorem setI_reg (s : State) (w : Word) (r' : RegIdx) : (s.setI w).reg r' = s.reg r' := rfl
@[simp] theorem setI_readByte (s : State) (w : Word) (a' : Nat) : (s.setI w).readByte a' = s.readByte a' := rfl
@[simp] theorem setI_pixRead (s : State) (w : Word) (c' r' : Nat) : (s.setI w).pixRead c' r' = s.pixRead c' r' := rfl
@[simp] theorem setI_pins (s : State) (w : Word) : (s.setI w).pins = s.pins := rfl
@[simp] theorem setI_slot (s : State) (w : Word) (k : Fin 16) : (s.setI w).slot k = s.slot k := rfl

/-! ### setDt -/

@[simp] theorem setDt_v (s : State) (b : Byte) : (s.setDt b).v = s.v := rfl
@[simp] theorem setDt_pc (s : State) (b : Byte) : (s.setDt b).pc = s.pc := rfl
@[simp] theorem setDt_i (s : State) (b : Byte) : (s.setDt b).i = s.i := rfl
@[simp] theorem setDt_stack (s : State) (b : Byte) : (s.setDt b).stack = s.stack := rfl
@[simp] theorem setDt_sp (s : State) (b : Byte) : (s.setDt b).sp = s.sp := rfl
@[simp] theorem setDt_dt (s : State) (b : Byte) : (s.setDt b).dt = b := rfl
@[simp] theorem setDt_st (s : State) (b : Byte) : (s.setDt b).st = s.st := rfl
@[simp] theorem setDt_buz (s : State) (b : Byte) : (s.setDt b).buz = s.buz := rfl
@[simp] theorem setDt_mem (s : State) (b : Byte) : (s.setDt b).mem = s.mem := rfl
@[simp] theorem setDt_ipend (s : State) (b : Byte) : (s.setDt b).ipend = s.ipend := rfl
@[simp] theorem setDt_tpend (s : State) (b : Byte) : (s.setDt b).tpend = s.tpend := rfl
@[simp] theorem setDt_waitkey (s : State) (b : Byte) : (s.setDt b).waitkey = s.waitkey := rfl
@[simp] theorem setDt_waitreg (s : State) (b : Byte) : (s.setDt b).waitreg = s.waitreg := rfl
@[simp] theorem setDt_fcause (s : State) (b : Byte) : (s.setDt b).fcause = s.fcause := rfl
@[simp] theorem setDt_fepc (s : State) (b : Byte) : (s.setDt b).fepc = s.fepc := rfl
@[simp] theorem setDt_finfo (s : State) (b : Byte) : (s.setDt b).finfo = s.finfo := rfl
@[simp] theorem setDt_display (s : State) (b : Byte) : (s.setDt b).display = s.display := rfl
@[simp] theorem setDt_params (s : State) (b : Byte) : (s.setDt b).params = s.params := rfl
@[simp] theorem setDt_inputs (s : State) (b : Byte) : (s.setDt b).inputs = s.inputs := rfl
@[simp] theorem setDt_cycle (s : State) (b : Byte) : (s.setDt b).cycle = s.cycle := rfl
@[simp] theorem setDt_reg (s : State) (b : Byte) (r' : RegIdx) : (s.setDt b).reg r' = s.reg r' := rfl
@[simp] theorem setDt_readByte (s : State) (b : Byte) (a' : Nat) : (s.setDt b).readByte a' = s.readByte a' := rfl
@[simp] theorem setDt_pixRead (s : State) (b : Byte) (c' r' : Nat) : (s.setDt b).pixRead c' r' = s.pixRead c' r' := rfl
@[simp] theorem setDt_pins (s : State) (b : Byte) : (s.setDt b).pins = s.pins := rfl
@[simp] theorem setDt_slot (s : State) (b : Byte) (k : Fin 16) : (s.setDt b).slot k = s.slot k := rfl

/-! ### setSt -/

@[simp] theorem setSt_v (s : State) (b : Byte) : (s.setSt b).v = s.v := rfl
@[simp] theorem setSt_pc (s : State) (b : Byte) : (s.setSt b).pc = s.pc := rfl
@[simp] theorem setSt_i (s : State) (b : Byte) : (s.setSt b).i = s.i := rfl
@[simp] theorem setSt_stack (s : State) (b : Byte) : (s.setSt b).stack = s.stack := rfl
@[simp] theorem setSt_sp (s : State) (b : Byte) : (s.setSt b).sp = s.sp := rfl
@[simp] theorem setSt_dt (s : State) (b : Byte) : (s.setSt b).dt = s.dt := rfl
@[simp] theorem setSt_st (s : State) (b : Byte) : (s.setSt b).st = b := rfl
@[simp] theorem setSt_buz (s : State) (b : Byte) : (s.setSt b).buz = s.buz := rfl
@[simp] theorem setSt_mem (s : State) (b : Byte) : (s.setSt b).mem = s.mem := rfl
@[simp] theorem setSt_ipend (s : State) (b : Byte) : (s.setSt b).ipend = s.ipend := rfl
@[simp] theorem setSt_tpend (s : State) (b : Byte) : (s.setSt b).tpend = s.tpend := rfl
@[simp] theorem setSt_waitkey (s : State) (b : Byte) : (s.setSt b).waitkey = s.waitkey := rfl
@[simp] theorem setSt_waitreg (s : State) (b : Byte) : (s.setSt b).waitreg = s.waitreg := rfl
@[simp] theorem setSt_fcause (s : State) (b : Byte) : (s.setSt b).fcause = s.fcause := rfl
@[simp] theorem setSt_fepc (s : State) (b : Byte) : (s.setSt b).fepc = s.fepc := rfl
@[simp] theorem setSt_finfo (s : State) (b : Byte) : (s.setSt b).finfo = s.finfo := rfl
@[simp] theorem setSt_display (s : State) (b : Byte) : (s.setSt b).display = s.display := rfl
@[simp] theorem setSt_params (s : State) (b : Byte) : (s.setSt b).params = s.params := rfl
@[simp] theorem setSt_inputs (s : State) (b : Byte) : (s.setSt b).inputs = s.inputs := rfl
@[simp] theorem setSt_cycle (s : State) (b : Byte) : (s.setSt b).cycle = s.cycle := rfl
@[simp] theorem setSt_reg (s : State) (b : Byte) (r' : RegIdx) : (s.setSt b).reg r' = s.reg r' := rfl
@[simp] theorem setSt_readByte (s : State) (b : Byte) (a' : Nat) : (s.setSt b).readByte a' = s.readByte a' := rfl
@[simp] theorem setSt_pixRead (s : State) (b : Byte) (c' r' : Nat) : (s.setSt b).pixRead c' r' = s.pixRead c' r' := rfl
@[simp] theorem setSt_pins (s : State) (b : Byte) : (s.setSt b).pins = s.pins := rfl
@[simp] theorem setSt_slot (s : State) (b : Byte) (k : Fin 16) : (s.setSt b).slot k = s.slot k := rfl

/-! ### writeByte -/

@[simp] theorem writeByte_v (s : State) (a : Nat) (b : Byte) : (s.writeByte a b).v = s.v := rfl
@[simp] theorem writeByte_pc (s : State) (a : Nat) (b : Byte) : (s.writeByte a b).pc = s.pc := rfl
@[simp] theorem writeByte_i (s : State) (a : Nat) (b : Byte) : (s.writeByte a b).i = s.i := rfl
@[simp] theorem writeByte_stack (s : State) (a : Nat) (b : Byte) : (s.writeByte a b).stack = s.stack := rfl
@[simp] theorem writeByte_sp (s : State) (a : Nat) (b : Byte) : (s.writeByte a b).sp = s.sp := rfl
@[simp] theorem writeByte_dt (s : State) (a : Nat) (b : Byte) : (s.writeByte a b).dt = s.dt := rfl
@[simp] theorem writeByte_st (s : State) (a : Nat) (b : Byte) : (s.writeByte a b).st = s.st := rfl
@[simp] theorem writeByte_buz (s : State) (a : Nat) (b : Byte) : (s.writeByte a b).buz = s.buz := rfl
@[simp] theorem writeByte_mem (s : State) (a : Nat) (b : Byte) : (s.writeByte a b).mem = s.mem.write a b := rfl
@[simp] theorem writeByte_ipend (s : State) (a : Nat) (b : Byte) : (s.writeByte a b).ipend = s.ipend := rfl
@[simp] theorem writeByte_tpend (s : State) (a : Nat) (b : Byte) : (s.writeByte a b).tpend = s.tpend := rfl
@[simp] theorem writeByte_waitkey (s : State) (a : Nat) (b : Byte) : (s.writeByte a b).waitkey = s.waitkey := rfl
@[simp] theorem writeByte_waitreg (s : State) (a : Nat) (b : Byte) : (s.writeByte a b).waitreg = s.waitreg := rfl
@[simp] theorem writeByte_fcause (s : State) (a : Nat) (b : Byte) : (s.writeByte a b).fcause = s.fcause := rfl
@[simp] theorem writeByte_fepc (s : State) (a : Nat) (b : Byte) : (s.writeByte a b).fepc = s.fepc := rfl
@[simp] theorem writeByte_finfo (s : State) (a : Nat) (b : Byte) : (s.writeByte a b).finfo = s.finfo := rfl
@[simp] theorem writeByte_display (s : State) (a : Nat) (b : Byte) : (s.writeByte a b).display = s.display := rfl
@[simp] theorem writeByte_params (s : State) (a : Nat) (b : Byte) : (s.writeByte a b).params = s.params := rfl
@[simp] theorem writeByte_inputs (s : State) (a : Nat) (b : Byte) : (s.writeByte a b).inputs = s.inputs := rfl
@[simp] theorem writeByte_cycle (s : State) (a : Nat) (b : Byte) : (s.writeByte a b).cycle = s.cycle := rfl
@[simp] theorem writeByte_reg (s : State) (a : Nat) (b : Byte) (r' : RegIdx) : (s.writeByte a b).reg r' = s.reg r' := rfl
@[simp] theorem writeByte_pixRead (s : State) (a : Nat) (b : Byte) (c' r' : Nat) : (s.writeByte a b).pixRead c' r' = s.pixRead c' r' := rfl
@[simp] theorem writeByte_pins (s : State) (a : Nat) (b : Byte) : (s.writeByte a b).pins = s.pins := rfl
@[simp] theorem writeByte_slot (s : State) (a : Nat) (b : Byte) (k : Fin 16) : (s.writeByte a b).slot k = s.slot k := rfl

/-! ### raise -/

@[simp] theorem raise_v (s : State) (c : Cause) (info epc : Word) : (s.raise c info epc).v = s.v := rfl
@[simp] theorem raise_pc (s : State) (c : Cause) (info epc : Word) : (s.raise c info epc).pc = s.pc := rfl
@[simp] theorem raise_i (s : State) (c : Cause) (info epc : Word) : (s.raise c info epc).i = s.i := rfl
@[simp] theorem raise_stack (s : State) (c : Cause) (info epc : Word) : (s.raise c info epc).stack = s.stack := rfl
@[simp] theorem raise_sp (s : State) (c : Cause) (info epc : Word) : (s.raise c info epc).sp = s.sp := rfl
@[simp] theorem raise_dt (s : State) (c : Cause) (info epc : Word) : (s.raise c info epc).dt = s.dt := rfl
@[simp] theorem raise_st (s : State) (c : Cause) (info epc : Word) : (s.raise c info epc).st = s.st := rfl
@[simp] theorem raise_buz (s : State) (c : Cause) (info epc : Word) : (s.raise c info epc).buz = s.buz := rfl
@[simp] theorem raise_mem (s : State) (c : Cause) (info epc : Word) : (s.raise c info epc).mem = s.mem := rfl
@[simp] theorem raise_ipend (s : State) (c : Cause) (info epc : Word) : (s.raise c info epc).ipend = s.ipend := rfl
@[simp] theorem raise_tpend (s : State) (c : Cause) (info epc : Word) : (s.raise c info epc).tpend = s.tpend := rfl
@[simp] theorem raise_waitkey (s : State) (c : Cause) (info epc : Word) : (s.raise c info epc).waitkey = s.waitkey := rfl
@[simp] theorem raise_waitreg (s : State) (c : Cause) (info epc : Word) : (s.raise c info epc).waitreg = s.waitreg := rfl
@[simp] theorem raise_fcause (s : State) (c : Cause) (info epc : Word) : (s.raise c info epc).fcause = c := rfl
@[simp] theorem raise_fepc (s : State) (c : Cause) (info epc : Word) : (s.raise c info epc).fepc = epc := rfl
@[simp] theorem raise_finfo (s : State) (c : Cause) (info epc : Word) : (s.raise c info epc).finfo = info := rfl
@[simp] theorem raise_display (s : State) (c : Cause) (info epc : Word) : (s.raise c info epc).display = s.display := rfl
@[simp] theorem raise_params (s : State) (c : Cause) (info epc : Word) : (s.raise c info epc).params = s.params := rfl
@[simp] theorem raise_inputs (s : State) (c : Cause) (info epc : Word) : (s.raise c info epc).inputs = s.inputs := rfl
@[simp] theorem raise_cycle (s : State) (c : Cause) (info epc : Word) : (s.raise c info epc).cycle = s.cycle := rfl
@[simp] theorem raise_reg (s : State) (c : Cause) (info epc : Word) (r' : RegIdx) : (s.raise c info epc).reg r' = s.reg r' := rfl
@[simp] theorem raise_readByte (s : State) (c : Cause) (info epc : Word) (a' : Nat) : (s.raise c info epc).readByte a' = s.readByte a' := rfl
@[simp] theorem raise_pixRead (s : State) (c : Cause) (info epc : Word) (c' r' : Nat) : (s.raise c info epc).pixRead c' r' = s.pixRead c' r' := rfl
@[simp] theorem raise_pins (s : State) (c : Cause) (info epc : Word) : (s.raise c info epc).pins = s.pins := rfl
@[simp] theorem raise_slot (s : State) (c : Cause) (info epc : Word) (k : Fin 16) : (s.raise c info epc).slot k = s.slot k := rfl

/-! ### raiseHere -/

@[simp] theorem raiseHere_v (s : State) (c : Cause) (info : Word) : (s.raiseHere c info).v = s.v := rfl
@[simp] theorem raiseHere_pc (s : State) (c : Cause) (info : Word) : (s.raiseHere c info).pc = s.pc := rfl
@[simp] theorem raiseHere_i (s : State) (c : Cause) (info : Word) : (s.raiseHere c info).i = s.i := rfl
@[simp] theorem raiseHere_stack (s : State) (c : Cause) (info : Word) : (s.raiseHere c info).stack = s.stack := rfl
@[simp] theorem raiseHere_sp (s : State) (c : Cause) (info : Word) : (s.raiseHere c info).sp = s.sp := rfl
@[simp] theorem raiseHere_dt (s : State) (c : Cause) (info : Word) : (s.raiseHere c info).dt = s.dt := rfl
@[simp] theorem raiseHere_st (s : State) (c : Cause) (info : Word) : (s.raiseHere c info).st = s.st := rfl
@[simp] theorem raiseHere_buz (s : State) (c : Cause) (info : Word) : (s.raiseHere c info).buz = s.buz := rfl
@[simp] theorem raiseHere_mem (s : State) (c : Cause) (info : Word) : (s.raiseHere c info).mem = s.mem := rfl
@[simp] theorem raiseHere_ipend (s : State) (c : Cause) (info : Word) : (s.raiseHere c info).ipend = s.ipend := rfl
@[simp] theorem raiseHere_tpend (s : State) (c : Cause) (info : Word) : (s.raiseHere c info).tpend = s.tpend := rfl
@[simp] theorem raiseHere_waitkey (s : State) (c : Cause) (info : Word) : (s.raiseHere c info).waitkey = s.waitkey := rfl
@[simp] theorem raiseHere_waitreg (s : State) (c : Cause) (info : Word) : (s.raiseHere c info).waitreg = s.waitreg := rfl
@[simp] theorem raiseHere_fcause (s : State) (c : Cause) (info : Word) : (s.raiseHere c info).fcause = c := rfl
@[simp] theorem raiseHere_fepc (s : State) (c : Cause) (info : Word) : (s.raiseHere c info).fepc = s.insnAddr := rfl
@[simp] theorem raiseHere_finfo (s : State) (c : Cause) (info : Word) : (s.raiseHere c info).finfo = info := rfl
@[simp] theorem raiseHere_display (s : State) (c : Cause) (info : Word) : (s.raiseHere c info).display = s.display := rfl
@[simp] theorem raiseHere_params (s : State) (c : Cause) (info : Word) : (s.raiseHere c info).params = s.params := rfl
@[simp] theorem raiseHere_inputs (s : State) (c : Cause) (info : Word) : (s.raiseHere c info).inputs = s.inputs := rfl
@[simp] theorem raiseHere_cycle (s : State) (c : Cause) (info : Word) : (s.raiseHere c info).cycle = s.cycle := rfl
@[simp] theorem raiseHere_reg (s : State) (c : Cause) (info : Word) (r' : RegIdx) : (s.raiseHere c info).reg r' = s.reg r' := rfl
@[simp] theorem raiseHere_readByte (s : State) (c : Cause) (info : Word) (a' : Nat) : (s.raiseHere c info).readByte a' = s.readByte a' := rfl
@[simp] theorem raiseHere_pixRead (s : State) (c : Cause) (info : Word) (c' r' : Nat) : (s.raiseHere c info).pixRead c' r' = s.pixRead c' r' := rfl
@[simp] theorem raiseHere_pins (s : State) (c : Cause) (info : Word) : (s.raiseHere c info).pins = s.pins := rfl
@[simp] theorem raiseHere_slot (s : State) (c : Cause) (info : Word) (k : Fin 16) : (s.raiseHere c info).slot k = s.slot k := rfl

/-! ### push -/

@[simp] theorem push_v (s : State) (w : Word) (h : s.sp.val < 16) : (s.push w h).v = s.v := rfl
@[simp] theorem push_pc (s : State) (w : Word) (h : s.sp.val < 16) : (s.push w h).pc = s.pc := rfl
@[simp] theorem push_i (s : State) (w : Word) (h : s.sp.val < 16) : (s.push w h).i = s.i := rfl
@[simp] theorem push_stack (s : State) (w : Word) (h : s.sp.val < 16) : (s.push w h).stack = s.stack.set s.sp.val w h := rfl
@[simp] theorem push_sp (s : State) (w : Word) (h : s.sp.val < 16) : (s.push w h).sp = ⟨s.sp.val + 1, Nat.succ_lt_succ h⟩ := rfl
@[simp] theorem push_dt (s : State) (w : Word) (h : s.sp.val < 16) : (s.push w h).dt = s.dt := rfl
@[simp] theorem push_st (s : State) (w : Word) (h : s.sp.val < 16) : (s.push w h).st = s.st := rfl
@[simp] theorem push_buz (s : State) (w : Word) (h : s.sp.val < 16) : (s.push w h).buz = s.buz := rfl
@[simp] theorem push_mem (s : State) (w : Word) (h : s.sp.val < 16) : (s.push w h).mem = s.mem := rfl
@[simp] theorem push_ipend (s : State) (w : Word) (h : s.sp.val < 16) : (s.push w h).ipend = s.ipend := rfl
@[simp] theorem push_tpend (s : State) (w : Word) (h : s.sp.val < 16) : (s.push w h).tpend = s.tpend := rfl
@[simp] theorem push_waitkey (s : State) (w : Word) (h : s.sp.val < 16) : (s.push w h).waitkey = s.waitkey := rfl
@[simp] theorem push_waitreg (s : State) (w : Word) (h : s.sp.val < 16) : (s.push w h).waitreg = s.waitreg := rfl
@[simp] theorem push_fcause (s : State) (w : Word) (h : s.sp.val < 16) : (s.push w h).fcause = s.fcause := rfl
@[simp] theorem push_fepc (s : State) (w : Word) (h : s.sp.val < 16) : (s.push w h).fepc = s.fepc := rfl
@[simp] theorem push_finfo (s : State) (w : Word) (h : s.sp.val < 16) : (s.push w h).finfo = s.finfo := rfl
@[simp] theorem push_display (s : State) (w : Word) (h : s.sp.val < 16) : (s.push w h).display = s.display := rfl
@[simp] theorem push_params (s : State) (w : Word) (h : s.sp.val < 16) : (s.push w h).params = s.params := rfl
@[simp] theorem push_inputs (s : State) (w : Word) (h : s.sp.val < 16) : (s.push w h).inputs = s.inputs := rfl
@[simp] theorem push_cycle (s : State) (w : Word) (h : s.sp.val < 16) : (s.push w h).cycle = s.cycle := rfl
@[simp] theorem push_reg (s : State) (w : Word) (h : s.sp.val < 16) (r' : RegIdx) : (s.push w h).reg r' = s.reg r' := rfl
@[simp] theorem push_readByte (s : State) (w : Word) (h : s.sp.val < 16) (a' : Nat) : (s.push w h).readByte a' = s.readByte a' := rfl
@[simp] theorem push_pixRead (s : State) (w : Word) (h : s.sp.val < 16) (c' r' : Nat) : (s.push w h).pixRead c' r' = s.pixRead c' r' := rfl
@[simp] theorem push_pins (s : State) (w : Word) (h : s.sp.val < 16) : (s.push w h).pins = s.pins := rfl

/-! ### popPc -/

@[simp] theorem popPc_v (s : State) (h : 0 < s.sp.val) : (s.popPc h).v = s.v := rfl
@[simp] theorem popPc_i (s : State) (h : 0 < s.sp.val) : (s.popPc h).i = s.i := rfl
@[simp] theorem popPc_stack (s : State) (h : 0 < s.sp.val) : (s.popPc h).stack = s.stack := rfl
@[simp] theorem popPc_dt (s : State) (h : 0 < s.sp.val) : (s.popPc h).dt = s.dt := rfl
@[simp] theorem popPc_st (s : State) (h : 0 < s.sp.val) : (s.popPc h).st = s.st := rfl
@[simp] theorem popPc_buz (s : State) (h : 0 < s.sp.val) : (s.popPc h).buz = s.buz := rfl
@[simp] theorem popPc_mem (s : State) (h : 0 < s.sp.val) : (s.popPc h).mem = s.mem := rfl
@[simp] theorem popPc_ipend (s : State) (h : 0 < s.sp.val) : (s.popPc h).ipend = s.ipend := rfl
@[simp] theorem popPc_tpend (s : State) (h : 0 < s.sp.val) : (s.popPc h).tpend = s.tpend := rfl
@[simp] theorem popPc_waitkey (s : State) (h : 0 < s.sp.val) : (s.popPc h).waitkey = s.waitkey := rfl
@[simp] theorem popPc_waitreg (s : State) (h : 0 < s.sp.val) : (s.popPc h).waitreg = s.waitreg := rfl
@[simp] theorem popPc_fcause (s : State) (h : 0 < s.sp.val) : (s.popPc h).fcause = s.fcause := rfl
@[simp] theorem popPc_fepc (s : State) (h : 0 < s.sp.val) : (s.popPc h).fepc = s.fepc := rfl
@[simp] theorem popPc_finfo (s : State) (h : 0 < s.sp.val) : (s.popPc h).finfo = s.finfo := rfl
@[simp] theorem popPc_display (s : State) (h : 0 < s.sp.val) : (s.popPc h).display = s.display := rfl
@[simp] theorem popPc_params (s : State) (h : 0 < s.sp.val) : (s.popPc h).params = s.params := rfl
@[simp] theorem popPc_inputs (s : State) (h : 0 < s.sp.val) : (s.popPc h).inputs = s.inputs := rfl
@[simp] theorem popPc_cycle (s : State) (h : 0 < s.sp.val) : (s.popPc h).cycle = s.cycle := rfl
@[simp] theorem popPc_reg (s : State) (h : 0 < s.sp.val) (r' : RegIdx) : (s.popPc h).reg r' = s.reg r' := rfl
@[simp] theorem popPc_readByte (s : State) (h : 0 < s.sp.val) (a' : Nat) : (s.popPc h).readByte a' = s.readByte a' := rfl
@[simp] theorem popPc_pixRead (s : State) (h : 0 < s.sp.val) (c' r' : Nat) : (s.popPc h).pixRead c' r' = s.pixRead c' r' := rfl
@[simp] theorem popPc_pins (s : State) (h : 0 < s.sp.val) : (s.popPc h).pins = s.pins := rfl
@[simp] theorem popPc_slot (s : State) (h : 0 < s.sp.val) (k : Fin 16) : (s.popPc h).slot k = s.slot k := rfl

/-! ### pixWrite -/

@[simp] theorem pixWrite_v (s : State) (c r : Nat) (b : Bool) : (s.pixWrite c r b).v = s.v := rfl
@[simp] theorem pixWrite_pc (s : State) (c r : Nat) (b : Bool) : (s.pixWrite c r b).pc = s.pc := rfl
@[simp] theorem pixWrite_i (s : State) (c r : Nat) (b : Bool) : (s.pixWrite c r b).i = s.i := rfl
@[simp] theorem pixWrite_stack (s : State) (c r : Nat) (b : Bool) : (s.pixWrite c r b).stack = s.stack := rfl
@[simp] theorem pixWrite_sp (s : State) (c r : Nat) (b : Bool) : (s.pixWrite c r b).sp = s.sp := rfl
@[simp] theorem pixWrite_dt (s : State) (c r : Nat) (b : Bool) : (s.pixWrite c r b).dt = s.dt := rfl
@[simp] theorem pixWrite_st (s : State) (c r : Nat) (b : Bool) : (s.pixWrite c r b).st = s.st := rfl
@[simp] theorem pixWrite_buz (s : State) (c r : Nat) (b : Bool) : (s.pixWrite c r b).buz = s.buz := rfl
@[simp] theorem pixWrite_mem (s : State) (c r : Nat) (b : Bool) : (s.pixWrite c r b).mem = s.mem := rfl
@[simp] theorem pixWrite_ipend (s : State) (c r : Nat) (b : Bool) : (s.pixWrite c r b).ipend = s.ipend := rfl
@[simp] theorem pixWrite_tpend (s : State) (c r : Nat) (b : Bool) : (s.pixWrite c r b).tpend = s.tpend := rfl
@[simp] theorem pixWrite_waitkey (s : State) (c r : Nat) (b : Bool) : (s.pixWrite c r b).waitkey = s.waitkey := rfl
@[simp] theorem pixWrite_waitreg (s : State) (c r : Nat) (b : Bool) : (s.pixWrite c r b).waitreg = s.waitreg := rfl
@[simp] theorem pixWrite_fcause (s : State) (c r : Nat) (b : Bool) : (s.pixWrite c r b).fcause = s.fcause := rfl
@[simp] theorem pixWrite_fepc (s : State) (c r : Nat) (b : Bool) : (s.pixWrite c r b).fepc = s.fepc := rfl
@[simp] theorem pixWrite_finfo (s : State) (c r : Nat) (b : Bool) : (s.pixWrite c r b).finfo = s.finfo := rfl
@[simp] theorem pixWrite_display (s : State) (c r : Nat) (b : Bool) : (s.pixWrite c r b).display = s.display.write s.params c r b := rfl
@[simp] theorem pixWrite_params (s : State) (c r : Nat) (b : Bool) : (s.pixWrite c r b).params = s.params := rfl
@[simp] theorem pixWrite_inputs (s : State) (c r : Nat) (b : Bool) : (s.pixWrite c r b).inputs = s.inputs := rfl
@[simp] theorem pixWrite_cycle (s : State) (c r : Nat) (b : Bool) : (s.pixWrite c r b).cycle = s.cycle := rfl
@[simp] theorem pixWrite_reg (s : State) (c r : Nat) (b : Bool) (r' : RegIdx) : (s.pixWrite c r b).reg r' = s.reg r' := rfl
@[simp] theorem pixWrite_readByte (s : State) (c r : Nat) (b : Bool) (a' : Nat) : (s.pixWrite c r b).readByte a' = s.readByte a' := rfl
@[simp] theorem pixWrite_pins (s : State) (c r : Nat) (b : Bool) : (s.pixWrite c r b).pins = s.pins := rfl
@[simp] theorem pixWrite_slot (s : State) (c r : Nat) (b : Bool) (k : Fin 16) : (s.pixWrite c r b).slot k = s.slot k := rfl

/-! ### dispClear -/

@[simp] theorem dispClear_v (s : State) : (s.dispClear).v = s.v := rfl
@[simp] theorem dispClear_pc (s : State) : (s.dispClear).pc = s.pc := rfl
@[simp] theorem dispClear_i (s : State) : (s.dispClear).i = s.i := rfl
@[simp] theorem dispClear_stack (s : State) : (s.dispClear).stack = s.stack := rfl
@[simp] theorem dispClear_sp (s : State) : (s.dispClear).sp = s.sp := rfl
@[simp] theorem dispClear_dt (s : State) : (s.dispClear).dt = s.dt := rfl
@[simp] theorem dispClear_st (s : State) : (s.dispClear).st = s.st := rfl
@[simp] theorem dispClear_buz (s : State) : (s.dispClear).buz = s.buz := rfl
@[simp] theorem dispClear_mem (s : State) : (s.dispClear).mem = s.mem := rfl
@[simp] theorem dispClear_ipend (s : State) : (s.dispClear).ipend = s.ipend := rfl
@[simp] theorem dispClear_tpend (s : State) : (s.dispClear).tpend = s.tpend := rfl
@[simp] theorem dispClear_waitkey (s : State) : (s.dispClear).waitkey = s.waitkey := rfl
@[simp] theorem dispClear_waitreg (s : State) : (s.dispClear).waitreg = s.waitreg := rfl
@[simp] theorem dispClear_fcause (s : State) : (s.dispClear).fcause = s.fcause := rfl
@[simp] theorem dispClear_fepc (s : State) : (s.dispClear).fepc = s.fepc := rfl
@[simp] theorem dispClear_finfo (s : State) : (s.dispClear).finfo = s.finfo := rfl
@[simp] theorem dispClear_display (s : State) : (s.dispClear).display = [] := rfl
@[simp] theorem dispClear_params (s : State) : (s.dispClear).params = s.params := rfl
@[simp] theorem dispClear_inputs (s : State) : (s.dispClear).inputs = s.inputs := rfl
@[simp] theorem dispClear_cycle (s : State) : (s.dispClear).cycle = s.cycle := rfl
@[simp] theorem dispClear_reg (s : State) (r' : RegIdx) : (s.dispClear).reg r' = s.reg r' := rfl
@[simp] theorem dispClear_readByte (s : State) (a' : Nat) : (s.dispClear).readByte a' = s.readByte a' := rfl
@[simp] theorem dispClear_pins (s : State) : (s.dispClear).pins = s.pins := rfl
@[simp] theorem dispClear_slot (s : State) (k : Fin 16) : (s.dispClear).slot k = s.slot k := rfl

/-! ### writeWithFlag -/

@[simp] theorem writeWithFlag_pc (s : State) (x : RegIdx) (b : Byte) (f : Bool) : (s.writeWithFlag x b f).pc = s.pc := rfl
@[simp] theorem writeWithFlag_i (s : State) (x : RegIdx) (b : Byte) (f : Bool) : (s.writeWithFlag x b f).i = s.i := rfl
@[simp] theorem writeWithFlag_stack (s : State) (x : RegIdx) (b : Byte) (f : Bool) : (s.writeWithFlag x b f).stack = s.stack := rfl
@[simp] theorem writeWithFlag_sp (s : State) (x : RegIdx) (b : Byte) (f : Bool) : (s.writeWithFlag x b f).sp = s.sp := rfl
@[simp] theorem writeWithFlag_dt (s : State) (x : RegIdx) (b : Byte) (f : Bool) : (s.writeWithFlag x b f).dt = s.dt := rfl
@[simp] theorem writeWithFlag_st (s : State) (x : RegIdx) (b : Byte) (f : Bool) : (s.writeWithFlag x b f).st = s.st := rfl
@[simp] theorem writeWithFlag_buz (s : State) (x : RegIdx) (b : Byte) (f : Bool) : (s.writeWithFlag x b f).buz = s.buz := rfl
@[simp] theorem writeWithFlag_mem (s : State) (x : RegIdx) (b : Byte) (f : Bool) : (s.writeWithFlag x b f).mem = s.mem := rfl
@[simp] theorem writeWithFlag_ipend (s : State) (x : RegIdx) (b : Byte) (f : Bool) : (s.writeWithFlag x b f).ipend = s.ipend := rfl
@[simp] theorem writeWithFlag_tpend (s : State) (x : RegIdx) (b : Byte) (f : Bool) : (s.writeWithFlag x b f).tpend = s.tpend := rfl
@[simp] theorem writeWithFlag_waitkey (s : State) (x : RegIdx) (b : Byte) (f : Bool) : (s.writeWithFlag x b f).waitkey = s.waitkey := rfl
@[simp] theorem writeWithFlag_waitreg (s : State) (x : RegIdx) (b : Byte) (f : Bool) : (s.writeWithFlag x b f).waitreg = s.waitreg := rfl
@[simp] theorem writeWithFlag_fcause (s : State) (x : RegIdx) (b : Byte) (f : Bool) : (s.writeWithFlag x b f).fcause = s.fcause := rfl
@[simp] theorem writeWithFlag_fepc (s : State) (x : RegIdx) (b : Byte) (f : Bool) : (s.writeWithFlag x b f).fepc = s.fepc := rfl
@[simp] theorem writeWithFlag_finfo (s : State) (x : RegIdx) (b : Byte) (f : Bool) : (s.writeWithFlag x b f).finfo = s.finfo := rfl
@[simp] theorem writeWithFlag_display (s : State) (x : RegIdx) (b : Byte) (f : Bool) : (s.writeWithFlag x b f).display = s.display := rfl
@[simp] theorem writeWithFlag_params (s : State) (x : RegIdx) (b : Byte) (f : Bool) : (s.writeWithFlag x b f).params = s.params := rfl
@[simp] theorem writeWithFlag_inputs (s : State) (x : RegIdx) (b : Byte) (f : Bool) : (s.writeWithFlag x b f).inputs = s.inputs := rfl
@[simp] theorem writeWithFlag_cycle (s : State) (x : RegIdx) (b : Byte) (f : Bool) : (s.writeWithFlag x b f).cycle = s.cycle := rfl
@[simp] theorem writeWithFlag_readByte (s : State) (x : RegIdx) (b : Byte) (f : Bool) (a' : Nat) : (s.writeWithFlag x b f).readByte a' = s.readByte a' := rfl
@[simp] theorem writeWithFlag_pixRead (s : State) (x : RegIdx) (b : Byte) (f : Bool) (c' r' : Nat) : (s.writeWithFlag x b f).pixRead c' r' = s.pixRead c' r' := rfl
@[simp] theorem writeWithFlag_pins (s : State) (x : RegIdx) (b : Byte) (f : Bool) : (s.writeWithFlag x b f).pins = s.pins := rfl
@[simp] theorem writeWithFlag_slot (s : State) (x : RegIdx) (b : Byte) (f : Bool) (k : Fin 16) : (s.writeWithFlag x b f).slot k = s.slot k := rfl

/-! ### writeDigits -/

@[simp] theorem writeDigits_v (s : State) (a : Nat) (b : Byte) : (s.writeDigits a b).v = s.v := rfl
@[simp] theorem writeDigits_pc (s : State) (a : Nat) (b : Byte) : (s.writeDigits a b).pc = s.pc := rfl
@[simp] theorem writeDigits_i (s : State) (a : Nat) (b : Byte) : (s.writeDigits a b).i = s.i := rfl
@[simp] theorem writeDigits_stack (s : State) (a : Nat) (b : Byte) : (s.writeDigits a b).stack = s.stack := rfl
@[simp] theorem writeDigits_sp (s : State) (a : Nat) (b : Byte) : (s.writeDigits a b).sp = s.sp := rfl
@[simp] theorem writeDigits_dt (s : State) (a : Nat) (b : Byte) : (s.writeDigits a b).dt = s.dt := rfl
@[simp] theorem writeDigits_st (s : State) (a : Nat) (b : Byte) : (s.writeDigits a b).st = s.st := rfl
@[simp] theorem writeDigits_buz (s : State) (a : Nat) (b : Byte) : (s.writeDigits a b).buz = s.buz := rfl
@[simp] theorem writeDigits_ipend (s : State) (a : Nat) (b : Byte) : (s.writeDigits a b).ipend = s.ipend := rfl
@[simp] theorem writeDigits_tpend (s : State) (a : Nat) (b : Byte) : (s.writeDigits a b).tpend = s.tpend := rfl
@[simp] theorem writeDigits_waitkey (s : State) (a : Nat) (b : Byte) : (s.writeDigits a b).waitkey = s.waitkey := rfl
@[simp] theorem writeDigits_waitreg (s : State) (a : Nat) (b : Byte) : (s.writeDigits a b).waitreg = s.waitreg := rfl
@[simp] theorem writeDigits_fcause (s : State) (a : Nat) (b : Byte) : (s.writeDigits a b).fcause = s.fcause := rfl
@[simp] theorem writeDigits_fepc (s : State) (a : Nat) (b : Byte) : (s.writeDigits a b).fepc = s.fepc := rfl
@[simp] theorem writeDigits_finfo (s : State) (a : Nat) (b : Byte) : (s.writeDigits a b).finfo = s.finfo := rfl
@[simp] theorem writeDigits_display (s : State) (a : Nat) (b : Byte) : (s.writeDigits a b).display = s.display := rfl
@[simp] theorem writeDigits_params (s : State) (a : Nat) (b : Byte) : (s.writeDigits a b).params = s.params := rfl
@[simp] theorem writeDigits_inputs (s : State) (a : Nat) (b : Byte) : (s.writeDigits a b).inputs = s.inputs := rfl
@[simp] theorem writeDigits_cycle (s : State) (a : Nat) (b : Byte) : (s.writeDigits a b).cycle = s.cycle := rfl
@[simp] theorem writeDigits_reg (s : State) (a : Nat) (b : Byte) (r' : RegIdx) : (s.writeDigits a b).reg r' = s.reg r' := rfl
@[simp] theorem writeDigits_pixRead (s : State) (a : Nat) (b : Byte) (c' r' : Nat) : (s.writeDigits a b).pixRead c' r' = s.pixRead c' r' := rfl
@[simp] theorem writeDigits_pins (s : State) (a : Nat) (b : Byte) : (s.writeDigits a b).pins = s.pins := rfl
@[simp] theorem writeDigits_slot (s : State) (a : Nat) (b : Byte) (k : Fin 16) : (s.writeDigits a b).slot k = s.slot k := rfl

/-! ### beginWait -/

@[simp] theorem beginWait_v (s : State) (x : RegIdx) : (s.beginWait x).v = s.v := rfl
@[simp] theorem beginWait_pc (s : State) (x : RegIdx) : (s.beginWait x).pc = s.pc := rfl
@[simp] theorem beginWait_i (s : State) (x : RegIdx) : (s.beginWait x).i = s.i := rfl
@[simp] theorem beginWait_stack (s : State) (x : RegIdx) : (s.beginWait x).stack = s.stack := rfl
@[simp] theorem beginWait_sp (s : State) (x : RegIdx) : (s.beginWait x).sp = s.sp := rfl
@[simp] theorem beginWait_dt (s : State) (x : RegIdx) : (s.beginWait x).dt = s.dt := rfl
@[simp] theorem beginWait_st (s : State) (x : RegIdx) : (s.beginWait x).st = s.st := rfl
@[simp] theorem beginWait_buz (s : State) (x : RegIdx) : (s.beginWait x).buz = s.buz := rfl
@[simp] theorem beginWait_mem (s : State) (x : RegIdx) : (s.beginWait x).mem = s.mem := rfl
@[simp] theorem beginWait_ipend (s : State) (x : RegIdx) : (s.beginWait x).ipend = s.ipend := rfl
@[simp] theorem beginWait_tpend (s : State) (x : RegIdx) : (s.beginWait x).tpend = s.tpend := rfl
@[simp] theorem beginWait_waitkey (s : State) (x : RegIdx) : (s.beginWait x).waitkey = true := rfl
@[simp] theorem beginWait_waitreg (s : State) (x : RegIdx) : (s.beginWait x).waitreg = x := rfl
@[simp] theorem beginWait_fcause (s : State) (x : RegIdx) : (s.beginWait x).fcause = s.fcause := rfl
@[simp] theorem beginWait_fepc (s : State) (x : RegIdx) : (s.beginWait x).fepc = s.fepc := rfl
@[simp] theorem beginWait_finfo (s : State) (x : RegIdx) : (s.beginWait x).finfo = s.finfo := rfl
@[simp] theorem beginWait_display (s : State) (x : RegIdx) : (s.beginWait x).display = s.display := rfl
@[simp] theorem beginWait_params (s : State) (x : RegIdx) : (s.beginWait x).params = s.params := rfl
@[simp] theorem beginWait_inputs (s : State) (x : RegIdx) : (s.beginWait x).inputs = s.inputs := rfl
@[simp] theorem beginWait_cycle (s : State) (x : RegIdx) : (s.beginWait x).cycle = s.cycle := rfl
@[simp] theorem beginWait_reg (s : State) (x : RegIdx) (r' : RegIdx) : (s.beginWait x).reg r' = s.reg r' := rfl
@[simp] theorem beginWait_readByte (s : State) (x : RegIdx) (a' : Nat) : (s.beginWait x).readByte a' = s.readByte a' := rfl
@[simp] theorem beginWait_pixRead (s : State) (x : RegIdx) (c' r' : Nat) : (s.beginWait x).pixRead c' r' = s.pixRead c' r' := rfl
@[simp] theorem beginWait_pins (s : State) (x : RegIdx) : (s.beginWait x).pins = s.pins := rfl
@[simp] theorem beginWait_slot (s : State) (x : RegIdx) (k : Fin 16) : (s.beginWait x).slot k = s.slot k := rfl

/-! ### endWait -/

@[simp] theorem endWait_v (s : State) : (s.endWait).v = s.v := rfl
@[simp] theorem endWait_pc (s : State) : (s.endWait).pc = s.pc := rfl
@[simp] theorem endWait_i (s : State) : (s.endWait).i = s.i := rfl
@[simp] theorem endWait_stack (s : State) : (s.endWait).stack = s.stack := rfl
@[simp] theorem endWait_sp (s : State) : (s.endWait).sp = s.sp := rfl
@[simp] theorem endWait_dt (s : State) : (s.endWait).dt = s.dt := rfl
@[simp] theorem endWait_st (s : State) : (s.endWait).st = s.st := rfl
@[simp] theorem endWait_buz (s : State) : (s.endWait).buz = s.buz := rfl
@[simp] theorem endWait_mem (s : State) : (s.endWait).mem = s.mem := rfl
@[simp] theorem endWait_ipend (s : State) : (s.endWait).ipend = s.ipend := rfl
@[simp] theorem endWait_tpend (s : State) : (s.endWait).tpend = s.tpend := rfl
@[simp] theorem endWait_waitkey (s : State) : (s.endWait).waitkey = false := rfl
@[simp] theorem endWait_waitreg (s : State) : (s.endWait).waitreg = s.waitreg := rfl
@[simp] theorem endWait_fcause (s : State) : (s.endWait).fcause = s.fcause := rfl
@[simp] theorem endWait_fepc (s : State) : (s.endWait).fepc = s.fepc := rfl
@[simp] theorem endWait_finfo (s : State) : (s.endWait).finfo = s.finfo := rfl
@[simp] theorem endWait_display (s : State) : (s.endWait).display = s.display := rfl
@[simp] theorem endWait_params (s : State) : (s.endWait).params = s.params := rfl
@[simp] theorem endWait_inputs (s : State) : (s.endWait).inputs = s.inputs := rfl
@[simp] theorem endWait_cycle (s : State) : (s.endWait).cycle = s.cycle := rfl
@[simp] theorem endWait_reg (s : State) (r' : RegIdx) : (s.endWait).reg r' = s.reg r' := rfl
@[simp] theorem endWait_readByte (s : State) (a' : Nat) : (s.endWait).readByte a' = s.readByte a' := rfl
@[simp] theorem endWait_pixRead (s : State) (c' r' : Nat) : (s.endWait).pixRead c' r' = s.pixRead c' r' := rfl
@[simp] theorem endWait_pins (s : State) : (s.endWait).pins = s.pins := rfl
@[simp] theorem endWait_slot (s : State) (k : Fin 16) : (s.endWait).slot k = s.slot k := rfl

/-! ### timerStep -/

@[simp] theorem timerStep_v (s : State) : (s.timerStep).v = s.v := rfl
@[simp] theorem timerStep_pc (s : State) : (s.timerStep).pc = s.pc := rfl
@[simp] theorem timerStep_i (s : State) : (s.timerStep).i = s.i := rfl
@[simp] theorem timerStep_stack (s : State) : (s.timerStep).stack = s.stack := rfl
@[simp] theorem timerStep_sp (s : State) : (s.timerStep).sp = s.sp := rfl
@[simp] theorem timerStep_dt (s : State) : (s.timerStep).dt = countDown s.dt := rfl
@[simp] theorem timerStep_st (s : State) : (s.timerStep).st = countDown s.st := rfl
@[simp] theorem timerStep_buz (s : State) : (s.timerStep).buz = (countDown s.st != 0x00#8) := rfl
@[simp] theorem timerStep_mem (s : State) : (s.timerStep).mem = s.mem := rfl
@[simp] theorem timerStep_ipend (s : State) : (s.timerStep).ipend = s.ipend := rfl
@[simp] theorem timerStep_tpend (s : State) : (s.timerStep).tpend = s.tpend := rfl
@[simp] theorem timerStep_waitkey (s : State) : (s.timerStep).waitkey = s.waitkey := rfl
@[simp] theorem timerStep_waitreg (s : State) : (s.timerStep).waitreg = s.waitreg := rfl
@[simp] theorem timerStep_fcause (s : State) : (s.timerStep).fcause = s.fcause := rfl
@[simp] theorem timerStep_fepc (s : State) : (s.timerStep).fepc = s.fepc := rfl
@[simp] theorem timerStep_finfo (s : State) : (s.timerStep).finfo = s.finfo := rfl
@[simp] theorem timerStep_display (s : State) : (s.timerStep).display = s.display := rfl
@[simp] theorem timerStep_params (s : State) : (s.timerStep).params = s.params := rfl
@[simp] theorem timerStep_inputs (s : State) : (s.timerStep).inputs = s.inputs := rfl
@[simp] theorem timerStep_cycle (s : State) : (s.timerStep).cycle = s.cycle := rfl
@[simp] theorem timerStep_reg (s : State) (r' : RegIdx) : (s.timerStep).reg r' = s.reg r' := rfl
@[simp] theorem timerStep_readByte (s : State) (a' : Nat) : (s.timerStep).readByte a' = s.readByte a' := rfl
@[simp] theorem timerStep_pixRead (s : State) (c' r' : Nat) : (s.timerStep).pixRead c' r' = s.pixRead c' r' := rfl
@[simp] theorem timerStep_pins (s : State) : (s.timerStep).pins = s.pins := rfl
@[simp] theorem timerStep_slot (s : State) (k : Fin 16) : (s.timerStep).slot k = s.slot k := rfl

/-! ### latchTicks -/

@[simp] theorem latchTicks_v (s : State) (p : Pins) : (s.latchTicks p).v = s.v := rfl
@[simp] theorem latchTicks_pc (s : State) (p : Pins) : (s.latchTicks p).pc = s.pc := rfl
@[simp] theorem latchTicks_i (s : State) (p : Pins) : (s.latchTicks p).i = s.i := rfl
@[simp] theorem latchTicks_stack (s : State) (p : Pins) : (s.latchTicks p).stack = s.stack := rfl
@[simp] theorem latchTicks_sp (s : State) (p : Pins) : (s.latchTicks p).sp = s.sp := rfl
@[simp] theorem latchTicks_dt (s : State) (p : Pins) : (s.latchTicks p).dt = s.dt := rfl
@[simp] theorem latchTicks_st (s : State) (p : Pins) : (s.latchTicks p).st = s.st := rfl
@[simp] theorem latchTicks_buz (s : State) (p : Pins) : (s.latchTicks p).buz = s.buz := rfl
@[simp] theorem latchTicks_mem (s : State) (p : Pins) : (s.latchTicks p).mem = s.mem := rfl
@[simp] theorem latchTicks_ipend (s : State) (p : Pins) : (s.latchTicks p).ipend = (s.ipend || (p.itick && p.run)) := rfl
@[simp] theorem latchTicks_tpend (s : State) (p : Pins) : (s.latchTicks p).tpend = (s.tpend || (p.ttick && p.run)) := rfl
@[simp] theorem latchTicks_waitkey (s : State) (p : Pins) : (s.latchTicks p).waitkey = s.waitkey := rfl
@[simp] theorem latchTicks_waitreg (s : State) (p : Pins) : (s.latchTicks p).waitreg = s.waitreg := rfl
@[simp] theorem latchTicks_fcause (s : State) (p : Pins) : (s.latchTicks p).fcause = s.fcause := rfl
@[simp] theorem latchTicks_fepc (s : State) (p : Pins) : (s.latchTicks p).fepc = s.fepc := rfl
@[simp] theorem latchTicks_finfo (s : State) (p : Pins) : (s.latchTicks p).finfo = s.finfo := rfl
@[simp] theorem latchTicks_display (s : State) (p : Pins) : (s.latchTicks p).display = s.display := rfl
@[simp] theorem latchTicks_params (s : State) (p : Pins) : (s.latchTicks p).params = s.params := rfl
@[simp] theorem latchTicks_inputs (s : State) (p : Pins) : (s.latchTicks p).inputs = s.inputs := rfl
@[simp] theorem latchTicks_cycle (s : State) (p : Pins) : (s.latchTicks p).cycle = s.cycle := rfl
@[simp] theorem latchTicks_reg (s : State) (p : Pins) (r' : RegIdx) : (s.latchTicks p).reg r' = s.reg r' := rfl
@[simp] theorem latchTicks_readByte (s : State) (p : Pins) (a' : Nat) : (s.latchTicks p).readByte a' = s.readByte a' := rfl
@[simp] theorem latchTicks_pixRead (s : State) (p : Pins) (c' r' : Nat) : (s.latchTicks p).pixRead c' r' = s.pixRead c' r' := rfl
@[simp] theorem latchTicks_pins (s : State) (p : Pins) : (s.latchTicks p).pins = s.pins := rfl
@[simp] theorem latchTicks_slot (s : State) (p : Pins) (k : Fin 16) : (s.latchTicks p).slot k = s.slot k := rfl

/-! ### tickCycle -/

@[simp] theorem tickCycle_v (s : State) : (s.tickCycle).v = s.v := rfl
@[simp] theorem tickCycle_pc (s : State) : (s.tickCycle).pc = s.pc := rfl
@[simp] theorem tickCycle_i (s : State) : (s.tickCycle).i = s.i := rfl
@[simp] theorem tickCycle_stack (s : State) : (s.tickCycle).stack = s.stack := rfl
@[simp] theorem tickCycle_sp (s : State) : (s.tickCycle).sp = s.sp := rfl
@[simp] theorem tickCycle_dt (s : State) : (s.tickCycle).dt = s.dt := rfl
@[simp] theorem tickCycle_st (s : State) : (s.tickCycle).st = s.st := rfl
@[simp] theorem tickCycle_buz (s : State) : (s.tickCycle).buz = s.buz := rfl
@[simp] theorem tickCycle_mem (s : State) : (s.tickCycle).mem = s.mem := rfl
@[simp] theorem tickCycle_ipend (s : State) : (s.tickCycle).ipend = s.ipend := rfl
@[simp] theorem tickCycle_tpend (s : State) : (s.tickCycle).tpend = s.tpend := rfl
@[simp] theorem tickCycle_waitkey (s : State) : (s.tickCycle).waitkey = s.waitkey := rfl
@[simp] theorem tickCycle_waitreg (s : State) : (s.tickCycle).waitreg = s.waitreg := rfl
@[simp] theorem tickCycle_fcause (s : State) : (s.tickCycle).fcause = s.fcause := rfl
@[simp] theorem tickCycle_fepc (s : State) : (s.tickCycle).fepc = s.fepc := rfl
@[simp] theorem tickCycle_finfo (s : State) : (s.tickCycle).finfo = s.finfo := rfl
@[simp] theorem tickCycle_display (s : State) : (s.tickCycle).display = s.display := rfl
@[simp] theorem tickCycle_params (s : State) : (s.tickCycle).params = s.params := rfl
@[simp] theorem tickCycle_inputs (s : State) : (s.tickCycle).inputs = s.inputs.tail := rfl
@[simp] theorem tickCycle_cycle (s : State) : (s.tickCycle).cycle = s.cycle + 1 := rfl
@[simp] theorem tickCycle_reg (s : State) (r' : RegIdx) : (s.tickCycle).reg r' = s.reg r' := rfl
@[simp] theorem tickCycle_readByte (s : State) (a' : Nat) : (s.tickCycle).readByte a' = s.readByte a' := rfl
@[simp] theorem tickCycle_pixRead (s : State) (c' r' : Nat) : (s.tickCycle).pixRead c' r' = s.pixRead c' r' := rfl
@[simp] theorem tickCycle_slot (s : State) (k : Fin 16) : (s.tickCycle).slot k = s.slot k := rfl

/-! ### resetBlock -/

@[simp] theorem resetBlock_v (s : State) : (s.resetBlock).v = Vector.replicate 16 0x00#8 := rfl
@[simp] theorem resetBlock_pc (s : State) : (s.resetBlock).pc = progBase := rfl
@[simp] theorem resetBlock_i (s : State) : (s.resetBlock).i = 0#16 := rfl
@[simp] theorem resetBlock_stack (s : State) : (s.resetBlock).stack = Vector.replicate 16 0x0000#16 := rfl
@[simp] theorem resetBlock_sp (s : State) : (s.resetBlock).sp = 0 := rfl
@[simp] theorem resetBlock_dt (s : State) : (s.resetBlock).dt = 0#8 := rfl
@[simp] theorem resetBlock_st (s : State) : (s.resetBlock).st = 0#8 := rfl
@[simp] theorem resetBlock_buz (s : State) : (s.resetBlock).buz = false := rfl
@[simp] theorem resetBlock_mem (s : State) : (s.resetBlock).mem = [] := rfl
@[simp] theorem resetBlock_ipend (s : State) : (s.resetBlock).ipend = false := rfl
@[simp] theorem resetBlock_tpend (s : State) : (s.resetBlock).tpend = false := rfl
@[simp] theorem resetBlock_waitkey (s : State) : (s.resetBlock).waitkey = false := rfl
@[simp] theorem resetBlock_waitreg (s : State) : (s.resetBlock).waitreg = 0#4 := rfl
@[simp] theorem resetBlock_fcause (s : State) : (s.resetBlock).fcause = .none := rfl
@[simp] theorem resetBlock_fepc (s : State) : (s.resetBlock).fepc = 0#16 := rfl
@[simp] theorem resetBlock_finfo (s : State) : (s.resetBlock).finfo = 0#16 := rfl
@[simp] theorem resetBlock_display (s : State) : (s.resetBlock).display = s.display := rfl
@[simp] theorem resetBlock_params (s : State) : (s.resetBlock).params = s.params := rfl
@[simp] theorem resetBlock_inputs (s : State) : (s.resetBlock).inputs = s.inputs := rfl
@[simp] theorem resetBlock_cycle (s : State) : (s.resetBlock).cycle = s.cycle := rfl
@[simp] theorem resetBlock_pixRead (s : State) (c' r' : Nat) : (s.resetBlock).pixRead c' r' = s.pixRead c' r' := rfl
@[simp] theorem resetBlock_pins (s : State) : (s.resetBlock).pins = s.pins := rfl

end Sys2Proof.Machine
end

