-- ==== Sys2Proof/Laws/Store.lean ====
section
/-! SUPPORT. The laws of a store of cells: read after write, the canonical form kept, and equal readings give equal stores. The reading
laws hold of every list, in canonical form or not. -/

namespace Sys2Proof.Machine

variable {α : Type}

theorem cellRead_erase (d : α) (m : List (Nat × α)) (a b : Nat) :
    cellRead d (cellErase m a) b = if b = a then d else cellRead d m b := by
  induction m with
  | nil => simp [cellErase, cellRead]
  | cons p rest ih =>
    obtain ⟨k, v⟩ := p
    by_cases hak : a = k
    · subst hak
      simp only [cellErase, if_true, ih, cellRead]
      by_cases hba : b = a <;> simp [hba]
    · by_cases hbk : b = k
      · subst hbk
        simp [cellErase, cellRead, hak, Ne.symm hak]
      · simp [cellErase, cellRead, ih, hak, hbk]

theorem mem_cellErase {m : List (Nat × α)} {a : Nat} {p : Nat × α} :
    p ∈ cellErase m a ↔ p ∈ m ∧ p.1 ≠ a := by
  induction m with
  | nil => simp [cellErase]
  | cons q rest ih =>
    obtain ⟨k, v⟩ := q
    by_cases hak : a = k
    · subst hak
      simp only [cellErase, if_true, ih, List.mem_cons]
      constructor
      · rintro ⟨h, h'⟩
        exact ⟨.inr h, h'⟩
      · rintro ⟨rfl | h, h'⟩
        · exact absurd rfl h'
        · exact ⟨h, h'⟩
    · simp only [cellErase, hak, if_false, List.mem_cons, ih]
      constructor
      · rintro (rfl | ⟨h, h'⟩)
        · exact ⟨.inl rfl, Ne.symm hak⟩
        · exact ⟨.inr h, h'⟩
      · rintro ⟨rfl | h, h'⟩
        · exact .inl rfl
        · exact .inr ⟨h, h'⟩

theorem mem_cellInsert {m : List (Nat × α)} {a : Nat} {v : α} {p : Nat × α} :
    p ∈ cellInsert m a v ↔ p = (a, v) ∨ p ∈ m := by
  induction m with
  | nil => simp [cellInsert]
  | cons q rest ih =>
    obtain ⟨k, u⟩ := q
    by_cases hak : a < k
    · simp [cellInsert, hak]
    · simp only [cellInsert, hak, if_false, List.mem_cons, ih]
      tauto

theorem cellRead_insert (d : α) (m : List (Nat × α)) (a b : Nat) (v : α) (h : ∀ p ∈ m, p.1 ≠ a) :
    cellRead d (cellInsert m a v) b = if b = a then v else cellRead d m b := by
  induction m with
  | nil => simp [cellInsert, cellRead]
  | cons q rest ih =>
    obtain ⟨k, u⟩ := q
    have hka : k ≠ a := h (k, u) (by simp)
    have ih := ih fun p hp => h p (by simp [hp])
    by_cases hak : a < k
    · simp [cellInsert, cellRead, hak]
    · by_cases hbk : b = k
      · subst hbk
        simp [cellInsert, cellRead, hak, hka]
      · simp [cellInsert, cellRead, hak, hbk, ih]

/-- Read after write: the written key reads as written, every other key as before. -/
theorem cellRead_write [DecidableEq α] (d : α) (m : List (Nat × α)) (a b : Nat) (v : α) :
    cellRead d (cellWrite d m a v) b = if b = a then v else cellRead d m b := by
  by_cases hv : v = d
  · simp [cellWrite, hv, cellRead_erase]
  · rw [cellWrite, if_neg hv, cellRead_insert d _ a b v fun p hp => (mem_cellErase.1 hp).2, cellRead_erase]
    split <;> rfl

theorem pairwise_cellErase {m : List (Nat × α)} (h : m.Pairwise fun p q => p.1 < q.1) (a : Nat) :
    (cellErase m a).Pairwise fun p q => p.1 < q.1 := by
  induction m with
  | nil => simp [cellErase]
  | cons q rest ih =>
    obtain ⟨k, u⟩ := q
    rw [List.pairwise_cons] at h
    by_cases hak : a = k
    · simpa [cellErase, hak] using ih h.2
    · simp only [cellErase, hak, if_false, List.pairwise_cons]
      exact ⟨fun p hp => h.1 p (mem_cellErase.1 hp).1, ih h.2⟩

theorem pairwise_cellInsert {m : List (Nat × α)} (h : m.Pairwise fun p q => p.1 < q.1) (a : Nat) (v : α)
    (hne : ∀ p ∈ m, p.1 ≠ a) : (cellInsert m a v).Pairwise fun p q => p.1 < q.1 := by
  induction m with
  | nil => simp [cellInsert]
  | cons q rest ih =>
    obtain ⟨k, u⟩ := q
    have h' := List.pairwise_cons.1 h
    have hka : k ≠ a := hne (k, u) (by simp)
    by_cases hak : a < k
    · simp only [cellInsert, hak, if_true]
      refine List.pairwise_cons.2 ⟨fun p hp => ?_, h⟩
      rcases List.mem_cons.1 hp with rfl | hp
      · exact hak
      · exact lt_trans hak (h'.1 p hp)
    · simp only [cellInsert, hak, if_false, List.pairwise_cons]
      refine ⟨fun p hp => ?_, ih h'.2 fun p hp => hne p (by simp [hp])⟩
      rcases mem_cellInsert.1 hp with rfl | hp
      · show k < a
        omega
      · exact h'.1 p hp

/-- A write inside the store keeps the canonical form. -/
theorem cellWrite_wf [DecidableEq α] {d : α} {size : Nat} {m : List (Nat × α)} (h : CellsWf d size m) {a : Nat} (ha : a < size)
    (v : α) : CellsWf d size (cellWrite d m a v) := by
  obtain ⟨hs, hall⟩ := h
  have he : ∀ p ∈ cellErase m a, p.1 < size ∧ p.2 ≠ d := fun p hp => hall p (mem_cellErase.1 hp).1
  by_cases hv : v = d
  · simp only [cellWrite, hv, if_true]
    exact ⟨pairwise_cellErase hs a, he⟩
  · simp only [cellWrite, hv, if_false]
    refine ⟨pairwise_cellInsert (pairwise_cellErase hs a) a v fun p hp => (mem_cellErase.1 hp).2, fun p hp => ?_⟩
    rcases mem_cellInsert.1 hp with rfl | hp
    · exact ⟨ha, hv⟩
    · exact he p hp

theorem cellRead_of_lt (d : α) {m : List (Nat × α)} {a : Nat} (h : ∀ p ∈ m, a < p.1) : cellRead d m a = d := by
  induction m with
  | nil => rfl
  | cons q rest ih =>
    obtain ⟨k, u⟩ := q
    have hk : a < k := h (k, u) (by simp)
    rw [cellRead, if_neg (by omega)]
    exact ih fun p hp => h p (by simp [hp])

/-- Two stores in canonical form that read alike at every key are equal: equal contents are equal data. -/
theorem cells_ext [DecidableEq α] {d : α} {size : Nat} {m n : List (Nat × α)} (hm : CellsWf d size m) (hn : CellsWf d size n)
    (h : ∀ a, cellRead d m a = cellRead d n a) : m = n := by
  induction m generalizing n with
  | nil =>
    cases n with
    | nil => rfl
    | cons q rest =>
      obtain ⟨k, u⟩ := q
      have := h k
      simp only [cellRead, if_true] at this
      exact absurd this.symm (hn.2 (k, u) (by simp)).2
  | cons p rest ih =>
    obtain ⟨k, u⟩ := p
    have hmp := List.pairwise_cons.1 hm.1
    cases n with
    | nil =>
      have := h k
      simp only [cellRead, if_true] at this
      exact absurd this (hm.2 (k, u) (by simp)).2
    | cons q rest' =>
      obtain ⟨l, w⟩ := q
      have hnp := List.pairwise_cons.1 hn.1
      have hu := (hm.2 (k, u) (by simp)).2
      have hw := (hn.2 (l, w) (by simp)).2
      have hkl : k = l := by
        rcases lt_trichotomy k l with hlt | heq | hgt
        · have hk := h k
          simp only [cellRead, if_true, if_neg (show ¬ k = l by omega)] at hk
          rw [cellRead_of_lt d fun p hp => lt_trans hlt (hnp.1 p hp)] at hk
          exact absurd hk hu
        · exact heq
        · have hl := h l
          simp only [cellRead, if_true, if_neg (show ¬ l = k by omega)] at hl
          rw [cellRead_of_lt d fun p hp => lt_trans hgt (hmp.1 p hp)] at hl
          exact absurd hl.symm hw
      subst hkl
      have huw : u = w := by simpa [cellRead] using h k
      subst huw
      have : rest = rest' := by
        refine ih ⟨hmp.2, fun p hp => hm.2 p (by simp [hp])⟩ ⟨hnp.2, fun p hp => hn.2 p (by simp [hp])⟩ fun a => ?_
        by_cases hak : a = k
        · subst hak
          rw [cellRead_of_lt d fun p hp => hmp.1 p hp, cellRead_of_lt d fun p hp => hnp.1 p hp]
        · simpa [cellRead, hak] using h a
      rw [this]

/-- Memory: read after write. -/
theorem Memory.read_write (m : Memory) (a b : Nat) (v : Byte) :
    (m.write a v).read b = if b = a then v else m.read b := cellRead_write _ m a b v

/-- A write inside memory keeps memory's canonical form. -/
theorem Memory.write_wf {m : Memory} (h : m.wf) {a : Nat} (ha : a < memSize) (v : Byte) : (m.write a v).wf :=
  cellWrite_wf h ha v

/-- Equal bytes are equal memories. -/
theorem Memory.eq_of_read {m n : Memory} (hm : m.wf) (hn : n.wf) (h : ∀ a, m.read a = n.read a) : m = n :=
  cells_ext hm hn h

/-- Pixels inside the grid have keys of their own. -/
theorem pixelKey_inj {p : Params} {c r c' r' : Nat} (hc : c < p.dispW) (hc' : c' < p.dispW) :
    pixelKey p c r = pixelKey p c' r' ↔ c = c' ∧ r = r' := by
  refine ⟨fun h => ?_, fun h => by rw [h.1, h.2]⟩
  simp only [pixelKey] at h
  have hr : r = r' := by
    have h1 : (r * p.dispW + c) / p.dispW = r := by
      rw [Nat.mul_comm, Nat.mul_add_div (by omega), Nat.div_eq_of_lt hc, Nat.add_zero]
    have h2 : (r' * p.dispW + c') / p.dispW = r' := by
      rw [Nat.mul_comm, Nat.mul_add_div (by omega), Nat.div_eq_of_lt hc', Nat.add_zero]
    rw [← h1, ← h2, h]
  subst hr
  exact ⟨by omega, rfl⟩

/-- The key of a pixel inside the grid is one of the grid's keys. -/
theorem pixelKey_lt {p : Params} {c r : Nat} (hc : c < p.dispW) (hr : r < p.dispH) : pixelKey p c r < p.dispW * p.dispH := by
  have h : (r + 1) * p.dispW ≤ p.dispH * p.dispW := Nat.mul_le_mul_right _ hr
  rw [Nat.add_mul, Nat.one_mul] at h
  rw [pixelKey, Nat.mul_comm p.dispW]
  omega

/-- Display: read after write, for two pixels inside the grid. -/
theorem Display.read_write {p : Params} (d : Display) {c r c' r' : Nat} (hc : c < p.dispW) (hc' : c' < p.dispW) (b : Bool) :
    (d.write p c r b).read p c' r' = if c' = c ∧ r' = r then b else d.read p c' r' := by
  simp only [Display.read, Display.write, cellRead_write, pixelKey_inj hc' hc]

/-- A write inside the grid keeps the display's canonical form. -/
theorem Display.write_wf {p : Params} {d : Display} (h : d.wf p) {c r : Nat} (hc : c < p.dispW) (hr : r < p.dispH) (b : Bool) :
    (d.write p c r b).wf p := cellWrite_wf h (pixelKey_lt hc hr) b

/-- The cleared grid is in canonical form. -/
theorem Display.nil_wf (p : Params) : Display.wf p [] := ⟨List.Pairwise.nil, by simp⟩

/-- Every pixel of the cleared grid is off. -/
@[simp] theorem Display.read_nil (p : Params) (c r : Nat) : Display.read p [] c r = false := rfl

/-- A grid given by its lit pixels is in canonical form. -/
theorem Display.ofLit_wf (p : Params) (l : List Nat) : (Display.ofLit p l).wf p := by
  induction l with
  | nil => exact Display.nil_wf p
  | cons k rest ih =>
    rw [Display.ofLit]
    split
    · exact cellWrite_wf ih ‹_› true
    · exact ih

/-- Two grids in canonical form with the same pixels are equal. -/
theorem Display.eq_of_read {p : Params} {d e : Display} (hd : d.wf p) (he : e.wf p)
    (h : ∀ c r, c < p.dispW → r < p.dispH → d.read p c r = e.read p c r) : d = e := by
  refine cells_ext hd he fun a => ?_
  by_cases ha : a < p.dispW * p.dispH
  · have hw : 0 < p.dispW := Nat.succ_pos _
    have hk : pixelKey p (a % p.dispW) (a / p.dispW) = a := by
      rw [pixelKey, Nat.mul_comm]
      exact Nat.div_add_mod a p.dispW
    have := h (a % p.dispW) (a / p.dispW) (Nat.mod_lt _ hw) ((Nat.div_lt_iff_lt_mul hw).2 (by rwa [Nat.mul_comm] at ha))
    simpa only [Display.read, hk] using this
  · have off : ∀ {g : Display}, g.wf p → cellRead false g a = false := by
      intro g hg
      clear h hd he
      induction g with
      | nil => rfl
      | cons q rest ih =>
        obtain ⟨k, u⟩ := q
        have hk := (hg.2 (k, u) (by simp)).1
        rw [cellRead, if_neg (by rintro rfl; exact ha hk)]
        exact ih ⟨(List.pairwise_cons.1 hg.1).2, fun p hp => hg.2 p (by simp [hp])⟩
    rw [off hd, off he]

end Sys2Proof.Machine
end

