-- ==== Sys2Proof/Laws/Ops.lean ====
section
/-! SUPPORT. One lemma per shared operation: everything it can do. -/

namespace Sys2Proof.Machine

/-! ### Registers, memory, stack, pixels: read after write -/

@[simp] theorem reg_setReg (s : State) (r r' : RegIdx) (b : Byte) :
    (s.setReg r b).reg r' = if r' = r then b else s.reg r' := by
  simp only [State.reg, State.setReg, Vector.getElem_set]
  by_cases h : r' = r
  · simp [h]
  · rw [if_neg (fun h' => h (BitVec.eq_of_toNat_eq h'.symm)), if_neg h]

@[simp] theorem reg_writeWithFlag (s : State) (x r : RegIdx) (b : Byte) (f : Bool) :
    (s.writeWithFlag x b f).reg r = if r = VF then flagByte f else if r = x then b else s.reg r := by
  simp [State.writeWithFlag]

theorem readByte_writeByte (s : State) (a a' : Nat) (b : Byte) :
    (s.writeByte a b).readByte a' = if a' = a then b else s.readByte a' := Memory.read_write _ _ _ _

theorem readByte_writeDigits (s : State) (a a' : Nat) (b : Byte) :
    (s.writeDigits a b).readByte a' =
      if a' = a then hundreds b else if a' = a + 1 then tens b else if a' = a + 2 then ones b else s.readByte a' := by
  simp only [State.writeDigits, readByte_writeByte]
  repeat' split
  all_goals first | rfl | omega

theorem slot_push (s : State) (w : Word) (h : s.sp.val < 16) (k : Fin 16) :
    (s.push w h).slot k = if k.val = s.sp.val then w else s.slot k := by
  simp only [State.slot, State.push, Fin.getElem_fin, Vector.getElem_set, eq_comm]

theorem popPc_pc_eq (s : State) (h : 0 < s.sp.val) (h' : s.sp.val - 1 < 16) : (s.popPc h).pc = s.slot ⟨s.sp.val - 1, h'⟩ := rfl

theorem popPc_sp_val (s : State) (h : 0 < s.sp.val) : (s.popPc h).sp.val = s.sp.val - 1 := rfl

theorem pixRead_pixWrite (s : State) {c r c' r' : Nat} (hc : c < s.params.dispW) (hc' : c' < s.params.dispW) (b : Bool) :
    (s.pixWrite c r b).pixRead c' r' = if c' = c ∧ r' = r then b else s.pixRead c' r' := Display.read_write _ hc hc' b

@[simp] theorem pixRead_dispClear (s : State) (c r : Nat) : s.dispClear.pixRead c r = false := rfl

/-! ### The range check (R41) -/

theorem checkRange_eq_none {a len : Nat} : checkRange a len = none ↔ len = 0 ∨ a + len ≤ memSize := by
  simp only [checkRange, memSize, ite_eq_right_iff, reduceCtorEq, imp_false]
  omega

theorem checkRange_of_past {a len : Nat} (h0 : 1 ≤ len) (h : memSize < a + len) :
    checkRange a len = some (BitVec.ofNat 16 (max a memSize)) := by
  simp only [memSize] at h
  rw [checkRange, if_pos ⟨h0, by simp only [memSize]; omega⟩]

/-- Inside memory, the body runs. -/
theorem withRange_inside {a len : Nat} (s : State) (body : State → State) (h : len = 0 ∨ a + len ≤ memSize) :
    withRange a len s body = .next (body s) := by
  simp [withRange, checkRange_eq_none.2 h]

/-- Past the end of memory, the fault is recorded and the body does not run. -/
theorem withRange_past {a len : Nat} (s : State) (body : State → State) (h0 : 1 ≤ len) (h : memSize < a + len) :
    withRange a len s body = .next (s.raiseHere .memBound (BitVec.ofNat 16 (max a memSize))) := by
  simp [withRange, checkRange_of_past h0 h]

/-- A range access answers a next state: the body's, or the recorded fault. -/
theorem withRange_cases (a len : Nat) (s : State) (body : State → State) :
    withRange a len s body = .next (body s) ∨
    withRange a len s body = .next (s.raiseHere .memBound (BitVec.ofNat 16 (max a memSize))) := by
  by_cases h : len = 0 ∨ a + len ≤ memSize
  · exact .inl (withRange_inside s body h)
  · exact .inr (withRange_past s body (by omega) (by omega))

/-! ### Block transfers -/

theorem storeBlock_frame (s : State) (a m : Nat) : s.storeBlock a m = { s with mem := (s.storeBlock a m).mem } := by
  have h : ∃ x, s.storeBlock a m = { s with mem := x } := by
    induction m with
    | zero => exact ⟨s.mem, rfl⟩
    | succ k ih =>
      obtain ⟨x, hx⟩ := ih
      exact ⟨_, by simp only [State.storeBlock, hx]; rfl⟩
  obtain ⟨x, hx⟩ := h
  rw [hx]

theorem loadBlock_frame (s : State) (a m : Nat) : s.loadBlock a m = { s with v := (s.loadBlock a m).v } := by
  have h : ∃ x, s.loadBlock a m = { s with v := x } := by
    induction m with
    | zero => exact ⟨s.v, rfl⟩
    | succ k ih =>
      obtain ⟨x, hx⟩ := ih
      exact ⟨_, by simp only [State.loadBlock, hx]; rfl⟩
  obtain ⟨x, hx⟩ := h
  rw [hx]

@[simp] theorem storeBlock_reg (s : State) (a m : Nat) (r : RegIdx) : (s.storeBlock a m).reg r = s.reg r := by
  rw [storeBlock_frame]
  rfl

@[simp] theorem loadBlock_readByte (s : State) (a m b : Nat) : (s.loadBlock a m).readByte b = s.readByte b := by
  rw [loadBlock_frame]
  rfl

/-- The stored cells hold the registers, every other cell is as before. -/
theorem readByte_storeBlock (s : State) (a m b : Nat) :
    (s.storeBlock a m).readByte b = if a ≤ b ∧ b < a + m then s.reg (BitVec.ofNat 4 (b - a)) else s.readByte b := by
  induction m with
  | zero => simp [State.storeBlock]
  | succ k ih =>
    show ((s.storeBlock a k).writeByte (a + k) ((s.storeBlock a k).reg _)).readByte b = _
    rw [readByte_writeByte, ih, storeBlock_reg]
    by_cases h : b = a + k
    · subst h
      simp
    · rw [if_neg h]
      by_cases h' : a ≤ b ∧ b < a + k
      · rw [if_pos h', if_pos (by omega)]
      · rw [if_neg h', if_neg (by omega)]

/-- The loaded registers hold the cells, every other register is as before. -/
theorem reg_loadBlock (s : State) (a : Nat) {m : Nat} (hm : m ≤ 16) (r : RegIdx) :
    (s.loadBlock a m).reg r = if r.toNat < m then s.readByte (a + r.toNat) else s.reg r := by
  induction m with
  | zero => simp [State.loadBlock]
  | succ k ih =>
    show ((s.loadBlock a k).setReg _ ((s.loadBlock a k).readByte (a + k))).reg r = _
    rw [reg_setReg, loadBlock_readByte, ih (by omega)]
    have hk : r = BitVec.ofNat 4 k ↔ r.toNat = k := by
      constructor
      · rintro rfl
        simp [Nat.mod_eq_of_lt (show k < 16 by omega)]
      · rintro rfl
        simp
    by_cases h : r.toNat = k
    · rw [if_pos (hk.2 h), if_pos (by omega), h]
    · rw [if_neg (fun h' => h (hk.1 h'))]
      by_cases h' : r.toNat < k
      · rw [if_pos h', if_pos (by omega)]
      · rw [if_neg h', if_neg (by omega)]

theorem storeBlock_wf (s : State) {a m : Nat} (h : s.mem.wf) (ha : a + m ≤ memSize) : (s.storeBlock a m).mem.wf := by
  induction m with
  | zero => exact h
  | succ k ih => exact Memory.write_wf (ih (by omega)) (show a + k < memSize by omega) _

theorem writeDigits_wf (s : State) {a : Nat} (b : Byte) (h : s.mem.wf) (ha : a + 3 ≤ memSize) : (s.writeDigits a b).mem.wf :=
  Memory.write_wf (Memory.write_wf (Memory.write_wf h (by omega) _) (by omega) _) (by omega) _

/-! ### Drawing -/

theorem composite_frame (s : State) (bit : Bool) (c r : Nat) :
    s.composite bit c r = { s with v := (s.composite bit c r).v, display := (s.composite bit c r).display } := by
  unfold State.composite
  split
  · split <;> rfl
  · rfl

theorem drawPixels_frame (s : State) (b : Byte) (c0 r m : Nat) :
    s.drawPixels b c0 r m = { s with v := (s.drawPixels b c0 r m).v, display := (s.drawPixels b c0 r m).display } := by
  induction m with
  | zero => rfl
  | succ j ih =>
    simp only [State.drawPixels]
    split
    · exact ih
    · rw [composite_frame, ih]

theorem drawRows_frame (s : State) (a c0 r0 m : Nat) :
    s.drawRows a c0 r0 m = { s with v := (s.drawRows a c0 r0 m).v, display := (s.drawRows a c0 r0 m).display } := by
  induction m with
  | zero => rfl
  | succ r ih =>
    simp only [State.drawRows]
    split
    · exact ih
    · rw [drawPixels_frame, ih]

@[simp] theorem composite_params (s : State) (bit : Bool) (c r : Nat) : (s.composite bit c r).params = s.params := by
  rw [composite_frame]

@[simp] theorem drawPixels_params (s : State) (b : Byte) (c0 r m : Nat) : (s.drawPixels b c0 r m).params = s.params := by
  rw [drawPixels_frame]

@[simp] theorem drawRows_params (s : State) (a c0 r0 m : Nat) : (s.drawRows a c0 r0 m).params = s.params := by
  rw [drawRows_frame]

@[simp] theorem drawRows_readByte (s : State) (a c0 r0 m b : Nat) : (s.drawRows a c0 r0 m).readByte b = s.readByte b := by
  rw [drawRows_frame]
  rfl

/-- One pixel: XOR of the pixel with the sprite bit, every other pixel as before (R153). -/
theorem pixRead_composite (s : State) (bit : Bool) {c r c' r' : Nat} (hc : c < s.params.dispW) (hc' : c' < s.params.dispW) :
    (s.composite bit c r).pixRead c' r' = (s.pixRead c' r' ^^ (bit && decide (c' = c ∧ r' = r))) := by
  by_cases h : c' = c ∧ r' = r
  · obtain ⟨rfl, rfl⟩ := h
    cases bit
    · simp [State.composite]
    · simp only [State.composite, if_true]
      cases hp : s.pixRead c' r'
      · simp [pixRead_pixWrite s hc hc']
      · simp [pixRead_pixWrite s hc hc']
  · cases bit
    · simp [State.composite]
    · simp only [State.composite, if_true]
      split <;> simp [pixRead_pixWrite s hc hc', h]

/-- Registers after one pixel: VF is 1 if the pixel was turned off, nothing else is written (R153). -/
theorem reg_composite (s : State) (bit : Bool) (c r : Nat) (k : RegIdx) :
    (s.composite bit c r).reg k = if k = VF ∧ bit = true ∧ s.pixRead c r = true then 0x01#8 else s.reg k := by
  cases bit
  · simp [State.composite]
  · simp only [State.composite, if_true]
    cases hp : s.pixRead c r <;> simp

/-- One sprite row: each pixel of the row is XORed with its bit, clipped at the right edge (R151). -/
theorem pixRead_drawPixels (s : State) (b : Byte) (c0 r : Nat) {m : Nat} {c' r' : Nat} (hc' : c' < s.params.dispW) :
    (s.drawPixels b c0 r m).pixRead c' r' =
      (s.pixRead c' r' ^^ (decide (r' = r ∧ c0 ≤ c' ∧ c' < c0 + m) && b.getLsbD (7 - (c' - c0)))) := by
  induction m with
  | zero => simp [State.drawPixels, show ¬ (c0 ≤ c' ∧ c' < c0) by omega]
  | succ j ih =>
    simp only [State.drawPixels, drawPixels_params]
    split
    · rename_i h
      rw [ih, show decide (r' = r ∧ c0 ≤ c' ∧ c' < c0 + (j + 1)) = decide (r' = r ∧ c0 ≤ c' ∧ c' < c0 + j) from by
        rw [decide_eq_decide]; omega]
    · rw [pixRead_composite _ _ (by simp only [drawPixels_params]; omega) (by simpa using hc'), ih]
      by_cases h : c' = c0 + j ∧ r' = r
      · obtain ⟨rfl, rfl⟩ := h
        simp
      · rw [decide_eq_false h, show decide (r' = r ∧ c0 ≤ c' ∧ c' < c0 + (j + 1)) = decide (r' = r ∧ c0 ≤ c' ∧ c' < c0 + j) from by
          rw [decide_eq_decide]; omega]
        simp

/-- Registers after one sprite row: VF is 1 if some set bit inside the grid fell on a lit pixel, else as before (R153). -/
theorem reg_drawPixels (s : State) (b : Byte) (c0 r m : Nat) (k : RegIdx) :
    (s.drawPixels b c0 r m).reg k =
      if k = VF ∧ ∃ j < m, c0 + j < s.params.dispW ∧ b.getLsbD (7 - j) = true ∧ s.pixRead (c0 + j) r = true then 0x01#8
      else s.reg k := by
  induction m with
  | zero => simp [State.drawPixels]
  | succ j ih =>
    simp only [State.drawPixels, drawPixels_params]
    split
    · rename_i h
      rw [ih]
      congr 1
      refine propext (and_congr_right fun _ => ⟨fun ⟨i, hi, hr⟩ => ⟨i, by omega, hr⟩, fun ⟨i, hi, hr⟩ => ⟨i, ?_, hr⟩⟩)
      have := hr.1
      omega
    · rename_i h
      rw [reg_composite, ih, pixRead_drawPixels s b c0 r (by omega)]
      have hz : (decide (r = r ∧ c0 ≤ c0 + j ∧ c0 + j < c0 + j) && b.getLsbD (7 - (c0 + j - c0))) = false := by simp
      rw [hz, Bool.xor_false]
      by_cases hk : k = VF
      · by_cases hj : b.getLsbD (7 - j) = true ∧ s.pixRead (c0 + j) r = true
        · rw [if_pos ⟨hk, hj⟩, if_pos ⟨hk, j, by omega, by omega, hj⟩]
        · rw [if_neg (fun h' => hj h'.2)]
          congr 1
          refine propext (and_congr_right fun _ => ⟨fun ⟨i, hi, hr⟩ => ⟨i, by omega, hr⟩, fun ⟨i, hi, hr⟩ => ⟨i, ?_, hr⟩⟩)
          rcases Nat.lt_succ_iff_lt_or_eq.1 hi with hi' | rfl
          · exact hi'
          · exact absurd hr.2 hj
      · simp [hk]

/-- All rows: every pixel of the grid is XORed with the sprite bit that falls on it (R151, R153). -/
theorem pixRead_drawRows (s : State) (a c0 r0 : Nat) {m : Nat} {c' r' : Nat} (hc' : c' < s.params.dispW) (hr' : r' < s.params.dispH) :
    (s.drawRows a c0 r0 m).pixRead c' r' = (s.pixRead c' r' ^^ spriteBit s a c0 r0 m c' r') := by
  induction m with
  | zero => simp [State.drawRows, spriteBit, show ¬ (r0 ≤ r' ∧ r' < r0) by omega]
  | succ r ih =>
    simp only [State.drawRows, drawRows_params]
    split
    · rename_i h
      rw [ih]
      simp only [spriteBit]
      rw [show decide (c0 ≤ c' ∧ c' < c0 + 8 ∧ r0 ≤ r' ∧ r' < r0 + (r + 1)) = decide (c0 ≤ c' ∧ c' < c0 + 8 ∧ r0 ≤ r' ∧ r' < r0 + r) from by
        rw [decide_eq_decide]; omega]
    · rw [pixRead_drawPixels _ _ _ _ (by simpa using hc'), ih, drawRows_readByte]
      by_cases h : r' = r0 + r
      · subst h
        simp [spriteBit]
      · simp only [spriteBit, h, false_and, decide_false, Bool.false_and, Bool.xor_false]
        rw [show decide (c0 ≤ c' ∧ c' < c0 + 8 ∧ r0 ≤ r' ∧ r' < r0 + (r + 1)) = decide (c0 ≤ c' ∧ c' < c0 + 8 ∧ r0 ≤ r' ∧ r' < r0 + r) from by
          rw [decide_eq_decide]; omega]

/-- Registers after all rows: VF is 1 if some set sprite bit inside the grid fell on a lit pixel, else as before (R153). -/
theorem reg_drawRows (s : State) (a c0 r0 m : Nat) (k : RegIdx) :
    (s.drawRows a c0 r0 m).reg k =
      if k = VF ∧ ∃ c < s.params.dispW, ∃ r < s.params.dispH, spriteBit s a c0 r0 m c r = true ∧ s.pixRead c r = true then 0x01#8
      else s.reg k := by
  induction m with
  | zero =>
    rw [if_neg]
    · rfl
    · rintro ⟨-, c, -, r, -, h, -⟩
      simp [spriteBit] at h
      omega
  | succ q ih =>
    simp only [State.drawRows, drawRows_params]
    split
    · rename_i hq
      rw [ih]
      congr 1
      refine propext (and_congr_right fun _ => exists_congr fun c => and_congr_right fun _ => exists_congr fun r =>
        and_congr_right fun hr => ?_)
      simp only [spriteBit]
      rw [show decide (c0 ≤ c ∧ c < c0 + 8 ∧ r0 ≤ r ∧ r < r0 + (q + 1)) = decide (c0 ≤ c ∧ c < c0 + 8 ∧ r0 ≤ r ∧ r < r0 + q) from by
        rw [decide_eq_decide]; omega]
    · rename_i hq
      rw [reg_drawPixels, ih, drawRows_params, drawRows_readByte]
      by_cases hk : k = VF
      · subst hk
        simp only [true_and]
        by_cases hnew : ∃ j < 8, c0 + j < s.params.dispW ∧ (s.readByte (a + q)).getLsbD (7 - j) = true ∧
            (s.drawRows a c0 r0 q).pixRead (c0 + j) (r0 + q) = true
        · rw [if_pos hnew, if_pos]
          obtain ⟨j, hj, hw, hb, hp⟩ := hnew
          refine ⟨c0 + j, hw, r0 + q, by omega, by simp [spriteBit, hj, hb], ?_⟩
          rw [pixRead_drawRows s a c0 r0 hw (by omega)] at hp
          simpa [spriteBit] using hp
        · rw [if_neg hnew]
          congr 1
          refine propext ⟨fun ⟨c, hc, r, hr, hb, hp⟩ => ⟨c, hc, r, hr, ?_, hp⟩, fun ⟨c, hc, r, hr, hb, hp⟩ => ⟨c, hc, r, hr, ?_, hp⟩⟩
          · simp only [spriteBit, Bool.and_eq_true, decide_eq_true_eq] at hb ⊢
            exact ⟨by omega, hb.2⟩
          · simp only [spriteBit, Bool.and_eq_true, decide_eq_true_eq] at hb ⊢
            refine ⟨?_, hb.2⟩
            by_contra hne
            have hrq : r = r0 + q := by omega
            subst hrq
            refine hnew ⟨c - c0, by omega, by omega, ?_, ?_⟩
            · simpa using hb.2
            · rw [show c0 + (c - c0) = c by omega, pixRead_drawRows s a c0 r0 hc hr]
              simp [spriteBit, hp]
      · simp [hk]

theorem composite_wf (s : State) (bit : Bool) {c r : Nat} (h : s.display.wf s.params) (hc : c < s.params.dispW)
    (hr : r < s.params.dispH) : (s.composite bit c r).display.wf s.params := by
  unfold State.composite
  split
  · split
    · exact Display.write_wf h hc hr false
    · exact Display.write_wf h hc hr true
  · exact h

theorem drawPixels_wf (s : State) (b : Byte) (c0 : Nat) {r m : Nat} (h : s.display.wf s.params) (hr : r < s.params.dispH) :
    (s.drawPixels b c0 r m).display.wf s.params := by
  induction m with
  | zero => exact h
  | succ j ih =>
    simp only [State.drawPixels, drawPixels_params]
    split
    · exact ih
    · have := composite_wf (s.drawPixels b c0 r j) (b.getLsbD (7 - j)) (c := c0 + j) (r := r) (by simpa using ih)
        (by simp only [drawPixels_params]; omega) (by simpa using hr)
      simpa using this

/-- Drawing keeps the display's canonical form: the core never addresses a pixel outside the grid (R152). -/
theorem drawRows_wf (s : State) (a c0 r0 : Nat) {m : Nat} (h : s.display.wf s.params) :
    (s.drawRows a c0 r0 m).display.wf s.params := by
  induction m with
  | zero => exact h
  | succ r ih =>
    simp only [State.drawRows, drawRows_params]
    split
    · exact ih
    · have := drawPixels_wf (s.drawRows a c0 r0 r) ((s.drawRows a c0 r0 r).readByte (a + r)) c0 (r := r0 + r) (m := 8) (by simpa using ih)
        (by simp only [drawRows_params]; omega)
      simpa using this

/-! ### Skips and timers -/

theorem skipIf_frame (s : State) (t : Bool) : s.skipIf t = { s with pc := if t then s.pc + 2#16 else s.pc } := by
  cases t <;> rfl

/-- One count: one less, but never below zero (R25). -/
@[simp] theorem countDown_toNat (b : Byte) : (countDown b).toNat = b.toNat - 1 := by
  unfold countDown
  split
  · rename_i h
    simp [h]
  · rename_i h
    have : b.toNat ≠ 0 := fun h' => h (BitVec.eq_of_toNat_eq (by simpa using h'))
    have hb := b.isLt
    rw [BitVec.toNat_sub]
    simp
    omega

end Sys2Proof.Machine
end

