-- ==== Sys2Proof/Laws/Exec.lean ====
section
/-! SUPPORT. What the meanings with two outcomes do in each, the flags as comparisons of numbers, and what every instruction can do at
most. -/

namespace Sys2Proof.Machine

/-! ### Flags as numbers -/

@[simp] theorem flagByte_toNat (f : Bool) : (flagByte f).toNat = if f = true then 1 else 0 := by cases f <;> rfl

theorem carryOut_eq (a b : Byte) : carryOut a b = decide (255 < a.toNat + b.toNat) := by
  have := a.isLt
  have := b.isLt
  rw [carryOut, BitVec.getLsbD, Nat.testBit_eq_decide_div_mod_eq, decide_eq_decide]
  simp only [BitVec.toNat_add, BitVec.toNat_setWidth]
  omega

theorem noBorrow_eq (a b : Byte) : noBorrow a b = decide (b.toNat ≤ a.toNat) := by simp [noBorrow, BitVec.ule]

theorem skipIf_pc_toNat (s : State) (b : Bool) :
    (s.skipIf b).pc.toNat = if b = true then (s.pc.toNat + 2) % 2 ^ 16 else s.pc.toNat := by
  rw [skipIf_frame]
  cases b <;> simp [BitVec.toNat_add]

/-! ### Meanings with two outcomes -/

theorem exec_call_of_lt (nnn : Addr12) (s : State) (h : s.sp.val < 16) :
    exec (.call nnn) s = .next ((s.push s.pc h).setPc (zext16 nnn)) := by simp [exec, execCall, h]

theorem exec_call_full (nnn : Addr12) (s : State) (h : ¬ s.sp.val < 16) :
    exec (.call nnn) s = .next (s.raiseHere .stackOverflow (zext16 nnn)) := by
  show execCall nnn s = _
  rw [execCall, dif_neg h]

theorem exec_ret_of_pos (s : State) (h : 0 < s.sp.val) : exec .ret s = .next (s.popPc h) := by simp [exec, execRet, h]

theorem exec_ret_empty (s : State) (h : ¬ 0 < s.sp.val) : exec .ret s = .next (s.raiseHere .stackUnderflow 0#16) := by
  show execRet s = _
  rw [execRet, dif_neg h]

theorem exec_ldB_inside (x : RegIdx) (s : State) (h : s.i.toNat + 3 ≤ memSize) :
    exec (.ldB x) s = .next (s.writeDigits s.i.toNat (s.reg x)) := by
  show execLdB x s = _
  unfold execLdB
  exact withRange_inside _ _ (.inr h)

theorem exec_storeRegs_inside (x : RegIdx) (s : State) (h : s.i.toNat + blockLen x ≤ memSize) :
    exec (.storeRegs x) s = .next (s.storeBlock s.i.toNat (blockLen x)) := by
  show execStoreRegs x s = _
  unfold execStoreRegs
  exact withRange_inside _ _ (.inr h)

theorem exec_loadRegs_inside (x : RegIdx) (s : State) (h : s.i.toNat + blockLen x ≤ memSize) :
    exec (.loadRegs x) s = .next (s.loadBlock s.i.toNat (blockLen x)) := by
  show execLoadRegs x s = _
  unfold execLoadRegs
  exact withRange_inside _ _ (.inr h)

theorem exec_drw_inside (x y : RegIdx) (n : Nibble) (s : State) (h : n = 0#4 ∨ s.i.toNat + n.toNat ≤ memSize) :
    exec (.drw x y n) s =
      .next ((s.setReg VF 0x00#8).drawRows s.i.toNat (s.drawCol x) (s.drawRow y) n.toNat) := by
  show execDrw x y n s = _
  unfold execDrw
  refine withRange_inside _ _ (h.imp ?_ id)
  rintro rfl
  rfl

/-- Each of the four range instructions either has its body's effect or records a MemBound fault and nothing else. -/
theorem exec_ldB_cases (x : RegIdx) (s : State) :
    (s.i.toNat + 3 ≤ memSize ∧ exec (.ldB x) s = .next (s.writeDigits s.i.toNat (s.reg x))) ∨
    (memSize < s.i.toNat + 3 ∧ exec (.ldB x) s = .next (s.raiseHere .memBound (BitVec.ofNat 16 (max s.i.toNat memSize)))) := by
  by_cases h : s.i.toNat + 3 ≤ memSize
  · exact .inl ⟨h, exec_ldB_inside x s h⟩
  · refine .inr ⟨by omega, ?_⟩
    show execLdB x s = _
    unfold execLdB
    exact withRange_past _ _ (by omega) (by omega)

theorem exec_storeRegs_cases (x : RegIdx) (s : State) :
    (s.i.toNat + blockLen x ≤ memSize ∧ exec (.storeRegs x) s = .next (s.storeBlock s.i.toNat (blockLen x))) ∨
    (memSize < s.i.toNat + blockLen x ∧
      exec (.storeRegs x) s = .next (s.raiseHere .memBound (BitVec.ofNat 16 (max s.i.toNat memSize)))) := by
  by_cases h : s.i.toNat + blockLen x ≤ memSize
  · exact .inl ⟨h, exec_storeRegs_inside x s h⟩
  · refine .inr ⟨by omega, ?_⟩
    show execStoreRegs x s = _
    unfold execStoreRegs
    exact withRange_past _ _ (Nat.succ_le_succ (Nat.zero_le _)) (by omega)

theorem exec_loadRegs_cases (x : RegIdx) (s : State) :
    (s.i.toNat + blockLen x ≤ memSize ∧ exec (.loadRegs x) s = .next (s.loadBlock s.i.toNat (blockLen x))) ∨
    (memSize < s.i.toNat + blockLen x ∧
      exec (.loadRegs x) s = .next (s.raiseHere .memBound (BitVec.ofNat 16 (max s.i.toNat memSize)))) := by
  by_cases h : s.i.toNat + blockLen x ≤ memSize
  · exact .inl ⟨h, exec_loadRegs_inside x s h⟩
  · refine .inr ⟨by omega, ?_⟩
    show execLoadRegs x s = _
    unfold execLoadRegs
    exact withRange_past _ _ (Nat.succ_le_succ (Nat.zero_le _)) (by omega)

theorem exec_drw_cases (x y : RegIdx) (n : Nibble) (s : State) :
    ((n = 0#4 ∨ s.i.toNat + n.toNat ≤ memSize) ∧ exec (.drw x y n) s =
      .next ((s.setReg VF 0x00#8).drawRows s.i.toNat (s.drawCol x) (s.drawRow y) n.toNat)) ∨
    ((n ≠ 0#4 ∧ memSize < s.i.toNat + n.toNat) ∧
      exec (.drw x y n) s = .next (s.raiseHere .memBound (BitVec.ofNat 16 (max s.i.toNat memSize)))) := by
  by_cases h : n = 0#4 ∨ s.i.toNat + n.toNat ≤ memSize
  · exact .inl ⟨h, exec_drw_inside x y n s h⟩
  · have hn : n ≠ 0#4 := fun h' => h (.inl h')
    have hn0 : n.toNat ≠ 0 := fun h' => hn (BitVec.eq_of_toNat_eq h')
    have hp : memSize < s.i.toNat + n.toNat := by
      by_contra h'
      exact h (.inr (by omega))
    refine .inr ⟨⟨hn, hp⟩, ?_⟩
    show execDrw x y n s = _
    unfold execDrw
    exact withRange_past _ _ (by omega) hp

/-! ### Steps that are not instructions -/

theorem keyEventStep_of_waiting (s : State) (h : s.waiting = true) : s.keyEventStep = (s.setReg s.waitreg 0x01#8).endWait := by
  rw [State.keyEventStep, if_pos h]

theorem keyCancelStep_of_waiting (s : State) (h : s.waiting = true) :
    s.keyCancelStep = s.endWait.raise .peripheralFailure 0#16 (s.pc - 2#16) := by
  rw [State.keyCancelStep, if_pos h]

theorem loadPort_of_run (s : State) (p : Pins) (h : p.run = true) : s.loadPort p = s := by simp [State.loadPort, h]

theorem loadPort_frame (s : State) (p : Pins) : s.loadPort p = { s with mem := (s.loadPort p).mem } := by
  unfold State.loadPort
  split <;> rfl

theorem loadPort_wf (s : State) (p : Pins) (h : s.mem.wf) : (s.loadPort p).mem.wf := by
  unfold State.loadPort
  split
  · exact Memory.write_wf h p.ldAddr.isLt _
  · exact h

@[simp] theorem mapNext_next (f : State → State) (s : State) : mapNext f (.next s) = .next (f s) := rfl

theorem loadPort_readByte (s : State) (p : Pins) (a : Nat) : (s.loadPort p).readByte a =
    if p.run = false ∧ p.ldWe = true ∧ a = p.ldAddr.toNat then p.ldData else s.readByte a := by
  unfold State.loadPort
  cases hr : p.run <;> cases hw : p.ldWe <;> simp [readByte_writeByte]

/-! ### What every instruction can do at most -/

/-- The fields no instruction reads or writes but by carrying them along, as far as two states agree on them. -/
abbrev SameOutside (s t : State) : Prop :=
  t.buz = s.buz ∧ t.ipend = s.ipend ∧ t.tpend = s.tpend ∧ t.params = s.params ∧ t.inputs = s.inputs ∧ t.cycle = s.cycle

/-- Every instruction either records a fault and does nothing else, or leaves the fault record and everything outside the CPU alone. -/
theorem exec_cases (i : Instr) (s : State) :
    (∃ c info, c ≠ .none ∧ exec i s = .next (s.raiseHere c info)) ∨
    (∃ t, exec i s = .next t ∧ t.fcause = s.fcause ∧ t.fepc = s.fepc ∧ t.finfo = s.finfo ∧ SameOutside s t) := by
  cases i
  case ret =>
    by_cases h : 0 < s.sp.val
    · exact .inr ⟨_, exec_ret_of_pos s h, rfl, rfl, rfl, rfl, rfl, rfl, rfl, rfl, rfl⟩
    · exact .inl ⟨_, _, by simp, exec_ret_empty s h⟩
  case call nnn =>
    by_cases h : s.sp.val < 16
    · exact .inr ⟨_, exec_call_of_lt nnn s h, rfl, rfl, rfl, rfl, rfl, rfl, rfl, rfl, rfl⟩
    · exact .inl ⟨_, _, by simp, exec_call_full nnn s h⟩
  case ldB x =>
    rcases exec_ldB_cases x s with ⟨_, h⟩ | ⟨_, h⟩
    · exact .inr ⟨_, h, rfl, rfl, rfl, rfl, rfl, rfl, rfl, rfl, rfl⟩
    · exact .inl ⟨_, _, by simp, h⟩
  case storeRegs x =>
    rcases exec_storeRegs_cases x s with ⟨_, h⟩ | ⟨_, h⟩
    · rw [storeBlock_frame] at h
      exact .inr ⟨_, h, rfl, rfl, rfl, rfl, rfl, rfl, rfl, rfl, rfl⟩
    · exact .inl ⟨_, _, by simp, h⟩
  case loadRegs x =>
    rcases exec_loadRegs_cases x s with ⟨_, h⟩ | ⟨_, h⟩
    · rw [loadBlock_frame] at h
      exact .inr ⟨_, h, rfl, rfl, rfl, rfl, rfl, rfl, rfl, rfl, rfl⟩
    · exact .inl ⟨_, _, by simp, h⟩
  case drw x y n =>
    rcases exec_drw_cases x y n s with ⟨_, h⟩ | ⟨_, h⟩
    · rw [drawRows_frame] at h
      exact .inr ⟨_, h, rfl, rfl, rfl, rfl, rfl, rfl, rfl, rfl, rfl⟩
    · exact .inl ⟨_, _, by simp, h⟩
  all_goals refine .inr ⟨_, rfl, ?_⟩
  all_goals first
    | exact ⟨rfl, rfl, rfl, rfl, rfl, rfl, rfl, rfl, rfl⟩
    | (rw [skipIf_frame]; exact ⟨rfl, rfl, rfl, rfl, rfl, rfl, rfl, rfl, rfl⟩)

end Sys2Proof.Machine
end

