-- ==== Sys2Proof/Laws/PerInstr.lean ====
section
/-! SUPPORT. The per-instruction family RoundTrip: decoding the word of a well-formed instruction gives the instruction back (R71). -/

namespace Sys2Proof.Laws.RoundTrip

/-- The round trip of one instruction. -/
def Statement (i : Instr) : Prop := i.wellFormed = true → decodeWord (encode i) = .ok i

theorem cls : Statement (.cls) := fun _ => rfl

theorem ret : Statement (.ret) := fun _ => rfl

theorem sys (nnn : Addr12) : Statement (.sys nnn) := by
  intro h
  simp only [Instr.wellFormed, Bool.and_eq_true, bne_iff_ne] at h
  simp [encode, decodeWord, decodeFamily0, h.1, h.2]

theorem jp (nnn : Addr12) : Statement (.jp nnn) := by
  intro _; simp [encode, decodeWord]

theorem call (nnn : Addr12) : Statement (.call nnn) := by
  intro _; simp [encode, decodeWord]

theorem seImm (x : RegIdx) (kk : Byte) : Statement (.seImm x kk) := by
  intro _; simp [encode, decodeWord]

theorem sneImm (x : RegIdx) (kk : Byte) : Statement (.sneImm x kk) := by
  intro _; simp [encode, decodeWord]

theorem seReg (x : RegIdx) (y : RegIdx) : Statement (.seReg x y) := by
  intro _; simp [encode, decodeWord]

theorem ldImm (x : RegIdx) (kk : Byte) : Statement (.ldImm x kk) := by
  intro _; simp [encode, decodeWord]

theorem addImm (x : RegIdx) (kk : Byte) : Statement (.addImm x kk) := by
  intro _; simp [encode, decodeWord]

theorem ldReg (x : RegIdx) (y : RegIdx) : Statement (.ldReg x y) := by
  intro _; simp [encode, decodeWord, decodeFamily8]

theorem orReg (x : RegIdx) (y : RegIdx) : Statement (.orReg x y) := by
  intro _; simp [encode, decodeWord, decodeFamily8]

theorem andReg (x : RegIdx) (y : RegIdx) : Statement (.andReg x y) := by
  intro _; simp [encode, decodeWord, decodeFamily8]

theorem xorReg (x : RegIdx) (y : RegIdx) : Statement (.xorReg x y) := by
  intro _; simp [encode, decodeWord, decodeFamily8]

theorem addReg (x : RegIdx) (y : RegIdx) : Statement (.addReg x y) := by
  intro _; simp [encode, decodeWord, decodeFamily8]

theorem subReg (x : RegIdx) (y : RegIdx) : Statement (.subReg x y) := by
  intro _; simp [encode, decodeWord, decodeFamily8]

theorem shr (x : RegIdx) (y : RegIdx) : Statement (.shr x y) := by
  intro _; simp [encode, decodeWord, decodeFamily8]

theorem subnReg (x : RegIdx) (y : RegIdx) : Statement (.subnReg x y) := by
  intro _; simp [encode, decodeWord, decodeFamily8]

theorem shl (x : RegIdx) (y : RegIdx) : Statement (.shl x y) := by
  intro _; simp [encode, decodeWord, decodeFamily8]

theorem sneReg (x : RegIdx) (y : RegIdx) : Statement (.sneReg x y) := by
  intro _; simp [encode, decodeWord]

theorem ldI (nnn : Addr12) : Statement (.ldI nnn) := by
  intro _; simp [encode, decodeWord]

theorem jpV0 (nnn : Addr12) : Statement (.jpV0 nnn) := by
  intro _; simp [encode, decodeWord]

theorem rnd (x : RegIdx) (kk : Byte) : Statement (.rnd x kk) := by
  intro _; simp [encode, decodeWord]

theorem drw (x : RegIdx) (y : RegIdx) (n : Nibble) : Statement (.drw x y n) := by
  intro _; simp [encode, decodeWord]

theorem skp (x : RegIdx) : Statement (.skp x) := by
  intro _; simp [encode, decodeWord, decodeFamilyE]

theorem sknp (x : RegIdx) : Statement (.sknp x) := by
  intro _; simp [encode, decodeWord, decodeFamilyE]

theorem ldVxDt (x : RegIdx) : Statement (.ldVxDt x) := by
  intro _; simp [encode, decodeWord, decodeFamilyF]

theorem ldVxK (x : RegIdx) : Statement (.ldVxK x) := by
  intro _; simp [encode, decodeWord, decodeFamilyF]

theorem ldDtVx (x : RegIdx) : Statement (.ldDtVx x) := by
  intro _; simp [encode, decodeWord, decodeFamilyF]

theorem ldStVx (x : RegIdx) : Statement (.ldStVx x) := by
  intro _; simp [encode, decodeWord, decodeFamilyF]

theorem addI (x : RegIdx) : Statement (.addI x) := by
  intro _; simp [encode, decodeWord, decodeFamilyF]

theorem ldF (x : RegIdx) : Statement (.ldF x) := by
  intro _; simp [encode, decodeWord, decodeFamilyF]

theorem ldB (x : RegIdx) : Statement (.ldB x) := by
  intro _; simp [encode, decodeWord, decodeFamilyF]

theorem storeRegs (x : RegIdx) : Statement (.storeRegs x) := by
  intro _; simp [encode, decodeWord, decodeFamilyF]

theorem loadRegs (x : RegIdx) : Statement (.loadRegs x) := by
  intro _; simp [encode, decodeWord, decodeFamilyF]

end Sys2Proof.Laws.RoundTrip
end

