-- ==== Sys2Proof/Laws/Step.lean ====
section
/-! SUPPORT. What one step can do: reset, one of the four steps of R8, or an idle edge. -/

namespace Sys2Proof.Machine

@[simp] theorem endCycle_run (s : State) (p : Pins) (h : p.run = true) :
    s.endCycle p = { s with ipend := s.ipend || p.itick, tpend := s.tpend || p.ttick, inputs := s.inputs.tail, cycle := s.cycle + 1 } := by
  simp [State.endCycle, loadPort_of_run _ _ h, State.latchTicks, State.tickCycle, h]

/-- What an edge does beside its turn touches memory through the load port, the latches and the model's own fields, nothing else. -/
theorem endCycle_frame (s : State) (p : Pins) : s.endCycle p =
    { s with mem := (s.loadPort p).mem, ipend := s.ipend || (p.itick && p.run), tpend := s.tpend || (p.ttick && p.run),
             inputs := s.inputs.tail, cycle := s.cycle + 1 } := by
  unfold State.endCycle
  rw [loadPort_frame]
  rfl

theorem endCycle_readByte (s : State) (p : Pins) (a : Nat) : (s.endCycle p).readByte a =
    if p.run = false ∧ p.ldWe = true ∧ a = p.ldAddr.toNat then p.ldData else s.readByte a := by
  rw [← loadPort_readByte, endCycle_frame]
  rfl

theorem waiting_iff (s : State) : s.waiting = true ↔ s.waitkey = true ∧ s.fcause = .none := by
  simp [State.waiting]

theorem step_of_rst {s : State} (h : s.pins.rst = true) : step s = .next s.resetBlock.tickCycle := by
  simp [step, clockEdge, h]

theorem step_of_no_rst {s : State} (h : s.pins.rst = false) : step s = mapNext (fun t => t.endCycle s.pins) (turn s) := by
  simp [step, clockEdge, h]

theorem step_of_keyEvent {s : State} (h : KeyEventTurn s) :
    step s = .next (((s.setReg s.waitreg 0x01#8).endWait).endCycle s.pins) := by
  have hw : s.waiting = true := (waiting_iff s).2 ⟨h.2.1, h.2.2.1⟩
  rw [step_of_no_rst h.1, turn, if_pos (by simp [hw, h.2.2.2]), mapNext_next, keyEventStep_of_waiting s hw]

theorem step_of_keyCancel {s : State} (h : KeyCancelTurn s) :
    step s = .next ((s.endWait.raise .peripheralFailure 0#16 (s.pc - 2#16)).endCycle s.pins) := by
  have hw : s.waiting = true := (waiting_iff s).2 ⟨h.2.1, h.2.2.1⟩
  rw [step_of_no_rst h.1, turn, if_neg (by simp [h.2.2.2.1]), if_pos (by simp [hw, h.2.2.2.2]), mapNext_next,
    keyCancelStep_of_waiting s hw]

/-- An edge that is no reset and no effective key strobe is the scheduler's, if `run = 1`, and idle otherwise. -/
theorem step_of_no_key {s : State} (h : s.pins.rst = false) (he : ¬ KeyEventTurn s) (hc : ¬ KeyCancelTurn s) :
    step s = mapNext (fun t => t.endCycle s.pins) (if s.pins.run then schedule s else .next s) := by
  have h1 : ¬ (s.waiting && s.pins.keyEvent) = true := fun h' => by
    rw [Bool.and_eq_true, waiting_iff] at h'
    exact he ⟨h, h'.1.1, h'.1.2, h'.2⟩
  have h2 : ¬ (s.waiting && s.pins.kwCancel) = true := fun h' => by
    rw [Bool.and_eq_true, waiting_iff] at h'
    refine hc ⟨h, h'.1.1, h'.1.2, ?_, h'.2⟩
    cases hk : s.pins.keyEvent
    · rfl
    · exact absurd ⟨h, h'.1.1, h'.1.2, hk⟩ he
  rw [step_of_no_rst h, turn, if_neg h1, if_neg h2]

theorem step_of_timer {s : State} (h : TimerTurn s) :
    step s = .next ((({ s with tpend := false } : State).timerStep).endCycle s.pins) := by
  rw [step_of_no_key h.1 h.2.1 h.2.2.1, if_pos h.2.2.2.1, schedule, if_pos h.2.2.2.2, mapNext_next]

theorem cpuTurn_no_key {s : State} (h : CpuTurn s) : ¬ KeyEventTurn s ∧ ¬ KeyCancelTurn s :=
  ⟨fun h' => Bool.noConfusion (h'.2.1.symm.trans h.2.2.2.2.2), fun h' => Bool.noConfusion (h'.2.1.symm.trans h.2.2.2.2.2)⟩

theorem step_of_cpu {s : State} (h : CpuTurn s) :
    step s = mapNext (fun t => t.endCycle s.pins) (cpuStep { s with ipend := false }) := by
  rw [step_of_no_key h.1 (cpuTurn_no_key h).1 (cpuTurn_no_key h).2, if_pos h.2.1, schedule, if_neg (by simp [h.2.2.1]),
    if_pos (by simp [State.cpuEnabled, h.2.2.2.1, h.2.2.2.2.1, h.2.2.2.2.2])]

theorem step_of_idle {s : State} (h : s.pins.rst = false) (he : ¬ KeyEventTurn s) (hc : ¬ KeyCancelTurn s) (ht : ¬ TimerTurn s)
    (hp : ¬ CpuTurn s) : step s = .next (s.endCycle s.pins) := by
  rw [step_of_no_key h he hc]
  split
  · rename_i hr
    have htp : s.tpend = false := by
      cases htp : s.tpend
      · rfl
      · exact absurd ⟨h, he, hc, hr, htp⟩ ht
    rw [schedule, if_neg (by simp [htp]), if_neg, mapNext_next]
    intro h'
    simp only [State.cpuEnabled, Bool.and_eq_true, beq_iff_eq, Bool.not_eq_true'] at h'
    exact hp ⟨h, hr, htp, h'.1, h'.2.1, h'.2.2⟩
  · rfl

/-- One step is a reset, a key event step, a key cancel step, a timer step, an instruction tick or an idle edge. -/
theorem step_cases (s : State) :
    (s.pins.rst = true ∧ step s = .next s.resetBlock.tickCycle) ∨
    (KeyEventTurn s ∧ step s = .next (((s.setReg s.waitreg 0x01#8).endWait).endCycle s.pins)) ∨
    (KeyCancelTurn s ∧ step s = .next ((s.endWait.raise .peripheralFailure 0#16 (s.pc - 2#16)).endCycle s.pins)) ∨
    (TimerTurn s ∧ step s = .next ((({ s with tpend := false } : State).timerStep).endCycle s.pins)) ∨
    (CpuTurn s ∧ step s = mapNext (fun t => t.endCycle s.pins) (cpuStep { s with ipend := false })) ∨
    (s.pins.rst = false ∧ ¬ KeyEventTurn s ∧ ¬ KeyCancelTurn s ∧ ¬ TimerTurn s ∧ ¬ CpuTurn s ∧
      step s = .next (s.endCycle s.pins)) := by
  by_cases hr : s.pins.rst = true
  · exact .inl ⟨hr, step_of_rst hr⟩
  · have h : s.pins.rst = false := by simpa using hr
    by_cases he : KeyEventTurn s
    · exact .inr (.inl ⟨he, step_of_keyEvent he⟩)
    by_cases hc : KeyCancelTurn s
    · exact .inr (.inr (.inl ⟨hc, step_of_keyCancel hc⟩))
    by_cases ht : TimerTurn s
    · exact .inr (.inr (.inr (.inl ⟨ht, step_of_timer ht⟩)))
    by_cases hp : CpuTurn s
    · exact .inr (.inr (.inr (.inr (.inl ⟨hp, step_of_cpu hp⟩))))
    · exact .inr (.inr (.inr (.inr (.inr ⟨h, he, hc, ht, hp, step_of_idle h he hc ht hp⟩))))

/-! ### The instruction tick -/

theorem cpuStep_of_past {s : State} (h : lastFetch < s.pc.toNat) :
    cpuStep s = .next (s.raise .memBound (BitVec.ofNat 16 (max s.pc.toNat memSize)) s.pc) := by
  rw [cpuStep, if_pos h]

theorem cpuStep_of_ok {s : State} {i : Instr} (h : s.pc.toNat ≤ lastFetch) (hd : decodeWord s.fetchWord = .ok i) :
    cpuStep s = exec i s.advancePc := by
  rw [cpuStep, if_neg (by omega), hd]

theorem cpuStep_of_error {s : State} {e : DecodeError} (h : s.pc.toNat ≤ lastFetch) (hd : decodeWord s.fetchWord = .error e) :
    cpuStep s = .next (s.advancePc.raise .decodeFailure s.fetchWord s.pc) := by
  rw [cpuStep, if_neg (by omega), hd]

/-- The three ends of an instruction tick: the fetch is past memory, the word is illegal, or the instruction is executed. -/
theorem cpuStep_cases (s : State) :
    (lastFetch < s.pc.toNat ∧ cpuStep s = .next (s.raise .memBound (BitVec.ofNat 16 (max s.pc.toNat memSize)) s.pc)) ∨
    (∃ e, s.pc.toNat ≤ lastFetch ∧ decodeWord s.fetchWord = .error e ∧
      cpuStep s = .next (s.advancePc.raise .decodeFailure s.fetchWord s.pc)) ∨
    (∃ i, s.pc.toNat ≤ lastFetch ∧ decodeWord s.fetchWord = .ok i ∧ cpuStep s = exec i s.advancePc) := by
  by_cases h : lastFetch < s.pc.toNat
  · exact .inl ⟨h, cpuStep_of_past h⟩
  · cases hd : decodeWord s.fetchWord with
    | error e => exact .inr (.inl ⟨e, by omega, rfl, cpuStep_of_error (by omega) hd⟩)
    | ok i => exact .inr (.inr ⟨i, by omega, rfl, cpuStep_of_ok (by omega) hd⟩)

/-- The address of the executing instruction is the one it was fetched from (R89, R170). -/
@[simp] theorem insnAddr_advancePc (s : State) : s.advancePc.insnAddr = s.pc := by
  simp [State.insnAddr]

/-! ### Placing an instruction -/

theorem placeInsn_fetchWord (s : State) (nbits w : Nat) : (s.placeInsn nbits w).fetchWord = tableWord nbits w := by
  have h : ∀ (t : State) (a : Nat) (hi lo : Byte), ((t.writeByte a hi).writeByte (a + 1) lo).readByte a = hi ∧
      ((t.writeByte a hi).writeByte (a + 1) lo).readByte (a + 1) = lo := by
    intro t a hi lo
    simp [readByte_writeByte]
  have := h s (if lastFetch < s.pc.toNat then progBase else s.pc).toNat (highByte (tableWord nbits w)) (lowByte (tableWord nbits w))
  rw [← wordOfBytes_bytes (tableWord nbits w)]
  exact congrArg₂ wordOfBytes this.1 this.2

theorem placeInsn_cpuTurn (s : State) (nbits w : Nat) : CpuTurn (s.placeInsn nbits w) := ⟨rfl, rfl, rfl, rfl, rfl, rfl⟩

theorem placeInsn_pc (s : State) (nbits w : Nat) : (s.placeInsn nbits w).pc.toNat ≤ lastFetch := by
  show (if lastFetch < s.pc.toNat then progBase else s.pc).toNat ≤ lastFetch
  split
  · decide
  · omega

theorem placeInsn_mem_wf (s : State) (nbits w : Nat) (h : s.mem.wf) : (s.placeInsn nbits w).mem.wf := by
  have hp : (s.placeInsn nbits w).pc.toNat + 2 ≤ memSize := Nat.add_le_add_right (placeInsn_pc s nbits w) 2
  exact Memory.write_wf (a := (s.placeInsn nbits w).pc.toNat + 1) (Memory.write_wf (a := (s.placeInsn nbits w).pc.toNat) h
    (Nat.lt_of_lt_of_le (Nat.lt_add_of_pos_right Nat.two_pos) hp) _) (Nat.lt_of_lt_of_le (Nat.lt_succ_self _) hp) _

/-- The memory of the state after reset is in canonical form, and reset gives it to every state. -/
theorem reset_mem_wf : State.reset.mem.wf := ⟨List.Pairwise.nil, by simp [State.reset]⟩

theorem resetBlock_mem_wf (s : State) : s.resetBlock.mem.wf := reset_mem_wf

/-- Whatever the state, the step after `withFetchWord` runs exactly the instruction placed. -/
theorem step_withFetchWord (s t : State) (nbits w : Nat) (i : Instr) (ht : t = s.withFetchWord nbits w)
    (hd : decodeTableWord nbits w = some i) :
    step t = mapNext (fun u => u.endCycle t.pins) (exec i ({ t with ipend := false } : State).advancePc) := by
  rw [decodeTableWord_eq] at hd
  have hp : t = s.placeInsn nbits w := ht
  have hf : ({ t with ipend := false } : State).fetchWord = tableWord nbits w := by
    subst hp
    exact placeInsn_fetchWord s nbits w
  have hpc : ({ t with ipend := false } : State).pc.toNat ≤ lastFetch := by
    subst hp
    exact placeInsn_pc s nbits w
  rw [step_of_cpu (hp ▸ placeInsn_cpuTurn s nbits w), cpuStep_of_ok hpc]
  rw [hf]
  split at hd
  · rename_i hd'
    rw [hd', Option.some.inj hd]
  · cases hd

end Sys2Proof.Machine
end

