-- ==== Sys2Proof/Laws/Ports.lean ====
section
/-! SUPPORT. The cycles a step drives on the ports to the display and the keypad, as lists over pixels, and which edges drive any. -/

namespace Sys2Proof.Machine

@[simp] theorem portCycles_cls (s : State) : portCycles .cls s = [.clear] := rfl

@[simp] theorem portCycles_skp (x : RegIdx) (s : State) : portCycles (.skp x) s = [.query (s.reg x)] := rfl

@[simp] theorem portCycles_sknp (x : RegIdx) (s : State) : portCycles (.sknp x) s = [.query (s.reg x)] := rfl

/-- A sprite row reads and complements the pixels under its set bits that lie inside the grid, from left to right, each as it stood
before the row. -/
theorem drawPixelsCycles_eq (s : State) (b : Byte) (c0 r m : Nat) :
    s.drawPixelsCycles b c0 r m =
      ((List.range m).filter fun j => decide (c0 + j < s.params.dispW) && b.getLsbD (7 - j)).flatMap fun j =>
        [.read (c0 + j) r, .write (c0 + j) r (!s.pixRead (c0 + j) r)] := by
  induction m with
  | zero => rfl
  | succ j ih =>
    rw [State.drawPixelsCycles, ih, List.range_succ, List.filter_append, List.flatMap_append]
    congr 1
    by_cases h : s.params.dispW ≤ c0 + j
    · simp [h, show ¬ c0 + j < s.params.dispW by omega]
    · have h' : c0 + j < s.params.dispW := by omega
      cases hb : b.getLsbD (7 - j)
      · simp [State.compositeCycles, hb]
      · simp [State.compositeCycles, hb, h, h', pixRead_drawPixels s b c0 r h']

/-- A draw is its rows from top to bottom, clipped at the bottom edge, each over pixels as they stood before the draw. -/
theorem drawRowsCycles_eq (s : State) (a c0 r0 m : Nat) :
    s.drawRowsCycles a c0 r0 m =
      ((List.range m).filter fun q => decide (r0 + q < s.params.dispH)).flatMap fun q =>
        s.drawPixelsCycles (s.readByte (a + q)) c0 (r0 + q) 8 := by
  induction m with
  | zero => rfl
  | succ q ih =>
    rw [State.drawRowsCycles, ih, List.range_succ, List.filter_append, List.flatMap_append]
    congr 1
    by_cases h : s.params.dispH ≤ r0 + q
    · simp [h, show ¬ r0 + q < s.params.dispH by omega]
    · have h' : r0 + q < s.params.dispH := by omega
      simp only [h, if_false, h', decide_true, List.filter_cons_of_pos, List.filter_nil, List.flatMap_cons, List.flatMap_nil, List.append_nil]
      rw [drawPixelsCycles_eq, drawPixelsCycles_eq, drawRows_params]
      refine List.flatMap_congr fun j hj => ?_
      have hc : c0 + j < s.params.dispW := by
        have := (List.mem_filter.1 hj).2
        simp only [Bool.and_eq_true, decide_eq_true_eq] at this
        exact this.1
      rw [pixRead_drawRows s a c0 r0 hc h']
      simp [spriteBit]

theorem drwCycles_inside (x y : RegIdx) (n : Nibble) (s : State) (h : n = 0#4 ∨ s.i.toNat + n.toNat ≤ memSize) :
    portCycles (.drw x y n) s = (s.setReg VF 0x00#8).drawRowsCycles s.i.toNat (s.drawCol x) (s.drawRow y) n.toNat := by
  have hr : checkRange s.i.toNat n.toNat = none := checkRange_eq_none.2 (h.imp (fun h => by rw [h]; rfl) id)
  simp [portCycles, drwCycles, hr]

theorem drwCycles_past (x y : RegIdx) (n : Nibble) (s : State) (h0 : 1 ≤ n.toNat) (h : memSize < s.i.toNat + n.toNat) :
    portCycles (.drw x y n) s = [] := by
  simp [portCycles, drwCycles, checkRange_of_past h0 h]

theorem edgeCycles_guard (s : State) :
    (!s.pins.rst && s.pins.run && !s.tpend && s.ipend && s.cpuEnabled) = true ↔ CpuTurn s := by
  simp [CpuTurn, State.cpuEnabled, and_assoc]

/-- An edge drives these ports only if it is an instruction tick, its word is fetched and it is legal. -/
theorem edgeCycles_cases (s : State) :
    (∃ i, CpuTurn s ∧ s.pc.toNat ≤ lastFetch ∧ decodeWord s.fetchWord = .ok i ∧
      s.edgeCycles = portCycles i ({ s with ipend := false } : State).advancePc) ∨
    ((¬ CpuTurn s ∨ lastFetch < s.pc.toNat ∨ ∃ e, decodeWord s.fetchWord = .error e) ∧ s.edgeCycles = []) := by
  by_cases h : CpuTurn s
  · have hg := (edgeCycles_guard s).2 h
    by_cases hp : lastFetch < s.pc.toNat
    · exact .inr ⟨.inr (.inl hp), by simp only [State.edgeCycles, hg, hp, if_true]⟩
    · cases hd : decodeWord s.fetchWord with
      | ok i => exact .inl ⟨i, h, by omega, rfl, by simp only [State.edgeCycles, hg, hp, hd, if_true, if_false]⟩
      | error e => exact .inr ⟨.inr (.inr ⟨e, rfl⟩), by simp only [State.edgeCycles, hg, hp, hd, if_true, if_false]⟩
  · refine .inr ⟨.inl h, ?_⟩
    rw [State.edgeCycles, if_neg (fun h' => h ((edgeCycles_guard s).1 h'))]

end Sys2Proof.Machine
end

