-- ==== Sys2Proof/Tests/Slice0.lean ====
section
/-! SUPPORT. Tests. Every expected value is one of the spec's own vectors (`95_test_vectors.md`, cited as V<section>.<row>), or is read
off the rule named. The theorems named witness_<obligation> show that the hypotheses of a statement can be met, clause by clause. -/

namespace Sys2Proof.Tests.Slice0

open Sys2Proof.Machine

/-! ### Well-formedness (R65, R71): the one check refuses the words of CLS and RET as SYS -/

theorem test_wf_refuses_sys_0E0 : (Instr.sys 0x0E0#12).wellFormed = false := by decide
theorem test_wf_refuses_sys_0EE : (Instr.sys 0x0EE#12).wellFormed = false := by decide
theorem test_wf_admits_neighbours : ((Instr.sys 0x0E1#12).wellFormed && (Instr.sys 0x0EF#12).wellFormed) = true := by decide

/-! ### Decoding: a written word for every instruction (V2.1) -/

theorem test_decode_00E0 : decodeWord 0x00E0#16 = .ok (.cls) := by decide
theorem test_decode_00EE : decodeWord 0x00EE#16 = .ok (.ret) := by decide
theorem test_decode_0000 : decodeWord 0x0000#16 = .ok (.sys 0x000#12) := by decide
theorem test_decode_00E1 : decodeWord 0x00E1#16 = .ok (.sys 0x0E1#12) := by decide
theorem test_decode_0FFF : decodeWord 0x0FFF#16 = .ok (.sys 0xFFF#12) := by decide
theorem test_decode_1ABC : decodeWord 0x1ABC#16 = .ok (.jp 0xABC#12) := by decide
theorem test_decode_2FFE : decodeWord 0x2FFE#16 = .ok (.call 0xFFE#12) := by decide
theorem test_decode_3A55 : decodeWord 0x3A55#16 = .ok (.seImm 0xA#4 0x55#8) := by decide
theorem test_decode_4F00 : decodeWord 0x4F00#16 = .ok (.sneImm 0xF#4 0x00#8) := by decide
theorem test_decode_5AB0 : decodeWord 0x5AB0#16 = .ok (.seReg 0xA#4 0xB#4) := by decide
theorem test_decode_637F : decodeWord 0x637F#16 = .ok (.ldImm 3#4 0x7F#8) := by decide
theorem test_decode_7EFF : decodeWord 0x7EFF#16 = .ok (.addImm 0xE#4 0xFF#8) := by decide
theorem test_decode_8120 : decodeWord 0x8120#16 = .ok (.ldReg 1#4 2#4) := by decide
theorem test_decode_8121 : decodeWord 0x8121#16 = .ok (.orReg 1#4 2#4) := by decide
theorem test_decode_8122 : decodeWord 0x8122#16 = .ok (.andReg 1#4 2#4) := by decide
theorem test_decode_8123 : decodeWord 0x8123#16 = .ok (.xorReg 1#4 2#4) := by decide
theorem test_decode_8124 : decodeWord 0x8124#16 = .ok (.addReg 1#4 2#4) := by decide
theorem test_decode_8125 : decodeWord 0x8125#16 = .ok (.subReg 1#4 2#4) := by decide
theorem test_decode_8126 : decodeWord 0x8126#16 = .ok (.shr 1#4 2#4) := by decide
theorem test_decode_8127 : decodeWord 0x8127#16 = .ok (.subnReg 1#4 2#4) := by decide
theorem test_decode_812E : decodeWord 0x812E#16 = .ok (.shl 1#4 2#4) := by decide
theorem test_decode_9AB0 : decodeWord 0x9AB0#16 = .ok (.sneReg 0xA#4 0xB#4) := by decide
theorem test_decode_A123 : decodeWord 0xA123#16 = .ok (.ldI 0x123#12) := by decide
theorem test_decode_B300 : decodeWord 0xB300#16 = .ok (.jpV0 0x300#12) := by decide
theorem test_decode_C70F : decodeWord 0xC70F#16 = .ok (.rnd 7#4 0x0F#8) := by decide
theorem test_decode_D015 : decodeWord 0xD015#16 = .ok (.drw 0#4 1#4 5#4) := by decide
theorem test_decode_DFF0 : decodeWord 0xDFF0#16 = .ok (.drw 0xF#4 0xF#4 0#4) := by decide
theorem test_decode_E19E : decodeWord 0xE19E#16 = .ok (.skp 1#4) := by decide
theorem test_decode_EAA1 : decodeWord 0xEAA1#16 = .ok (.sknp 0xA#4) := by decide
theorem test_decode_F007 : decodeWord 0xF007#16 = .ok (.ldVxDt 0#4) := by decide
theorem test_decode_F10A : decodeWord 0xF10A#16 = .ok (.ldVxK 1#4) := by decide
theorem test_decode_F215 : decodeWord 0xF215#16 = .ok (.ldDtVx 2#4) := by decide
theorem test_decode_F318 : decodeWord 0xF318#16 = .ok (.ldStVx 3#4) := by decide
theorem test_decode_F41E : decodeWord 0xF41E#16 = .ok (.addI 4#4) := by decide
theorem test_decode_F529 : decodeWord 0xF529#16 = .ok (.ldF 5#4) := by decide
theorem test_decode_F633 : decodeWord 0xF633#16 = .ok (.ldB 6#4) := by decide
theorem test_decode_F755 : decodeWord 0xF755#16 = .ok (.storeRegs 7#4) := by decide
theorem test_decode_F865 : decodeWord 0xF865#16 = .ok (.loadRegs 8#4) := by decide

/-- The illegal words of V2.1. -/
theorem test_decode_illegal :
    ([0x5AB1#16, 0x500F#16, 0x8AB8#16, 0x8AB9#16, 0x8ABA#16, 0x8ABB#16, 0x8ABC#16, 0x8ABD#16, 0x8ABF#16, 0x9AB1#16, 0x900F#16,
      0xE000#16, 0xE19F#16, 0xE09D#16, 0xE1A0#16, 0xE1A2#16, 0xEFFF#16] ++
     [0xF000#16, 0xF006#16, 0xF008#16, 0xF1FF#16, 0xF056#16, 0xF066#16, 0xF075#16, 0xF085#16, 0xF01F#16, 0xF030#16, 0xF034#16]).all
      (fun w => decodeWord w == .error (.illegal w)) = true := by decide

/-- R42, R60: the first byte of an instruction is the more significant one; what follows is left. -/
theorem test_decode_bytes : decode [0x81#8, 0x24#8, 0x12#8] = .ok (.addReg 1#4 2#4, [0x12#8]) := by decide
theorem test_decode_truncated : decode [0x81#8] = .error .truncated := by decide

/-- S1: `Encode(ADD V1, V2)` = 8124, `Encode(DRW V0, V1, 5)` = D015, `Encode(LD V3, 0x7F)` = 637F, `Encode(LD VF, [I])` = FF65. -/
theorem test_encode : encode (.addReg 1#4 2#4) = 0x8124#16 ∧ encode (.drw 0#4 1#4 5#4) = 0xD015#16 ∧
    encode (.ldImm 3#4 0x7F#8) = 0x637F#16 ∧ encode (.loadRegs 15#4) = 0xFF65#16 := by decide

/-! ### One step -/

/-- Inputs under which the scheduler takes its turn and nothing else happens. -/
def quiet : Pins :=
  { rst := false, run := true, itick := false, ttick := false, ldWe := false, ldAddr := 0#12, ldData := 0#8,
    keyEvent := false, kwCancel := false, keys := 0#256, rnd := 0#8 }

/-- A state with the parameters of V, a dark display, an instruction tick pending and quiet inputs. -/
def base : State :=
  { State.reset with params := ⟨63, 31, .vx, 0⟩, display := [], inputs := [quiet, quiet], ipend := true }

/-- Registers given one by one. -/
def regs (l : List (RegIdx × Byte)) (s : State) : State := l.foldl (fun s p => s.setReg p.1 p.2) s

/-- Bytes from an address on. -/
def bytes (a : Nat) : List Byte → State → State
  | [], s => s
  | b :: rest, s => bytes (a + 1) rest (s.writeByte a b)

/-- A word at the program counter. -/
def word (w : Word) (s : State) : State := bytes s.pc.toNat [highByte w, lowByte w] s

/-- One step answers a next state with a property. -/
def after (s : State) (f : State → Bool) : Bool :=
  match step s with
  | .next t => f t
  | .fault _ => false
  | .refused _ => false

/-- One instruction with registers given, then a property. -/
def does (w : Word) (l : List (RegIdx × Byte)) (s : State) (f : State → Bool) : Bool := after (regs l (word w s)) f

/-! #### Control transfer -/

/-- V2.2.1 -/
theorem test_sys : does 0x0300#16 [] base (fun t => t.pc == 0x0300#16) = true := by decide
/-- V2.2.3 -/
theorem test_jp : does 0x1234#16 [] base (fun t => t.pc == 0x0234#16) = true := by decide
/-- V2.2.7 -/
theorem test_call_last_slot : does 0x2300#16 [] { base with pc := 0x0250#16, sp := 15 } (fun t => t.slot 15 == 0x0252#16 && t.sp == 16 && t.pc == 0x0300#16) = true := by decide
/-- V2.2.8 -/
theorem test_call_full : does 0x2300#16 [] { base with pc := 0x0250#16, sp := 16 } (fun t => t.fcause == .stackOverflow && t.finfo == 0x0300#16 && t.fepc == 0x0250#16 && t.sp == 16 && t.pc == 0x0252#16) = true := by decide
/-- V2.2.10 -/
theorem test_ret_top : does 0x00EE#16 [] { base with pc := 0x0300#16, sp := 16, stack := base.stack.set 15 0x0252#16 } (fun t => t.sp == 15 && t.pc == 0x0252#16) = true := by decide
/-- V2.2.11 -/
theorem test_ret_empty : does 0x00EE#16 [] base (fun t => t.fcause == .stackUnderflow && t.finfo == 0x0000#16 && t.fepc == 0x0200#16 && t.pc == 0x0202#16) = true := by decide
/-- V2.2.13 -/
theorem test_jpV0 : does 0xBFFF#16 [(0#4, 0xFF#8)] base (fun t => t.pc == 0x10FE#16 && t.fcause == .none) = true := by decide
/-- V2.2.14 -/
theorem test_jpV0_not_Vx : does 0xB300#16 [(0#4, 0x00#8), (3#4, 0x55#8)] base (fun t => t.pc == 0x0300#16) = true := by decide
/-- V2.2.15 -/
theorem test_seImm_equal : does 0x3112#16 [(1#4, 0x12#8)] base (fun t => t.pc == 0x0204#16) = true := by decide
/-- V2.2.15 -/
theorem test_seImm_unequal : does 0x3113#16 [(1#4, 0x12#8)] base (fun t => t.pc == 0x0202#16) = true := by decide
/-- V2.2.16 -/
theorem test_sneImm_equal : does 0x4112#16 [(1#4, 0x12#8)] base (fun t => t.pc == 0x0202#16) = true := by decide
/-- V2.2.16 -/
theorem test_sneImm_unequal : does 0x4113#16 [(1#4, 0x12#8)] base (fun t => t.pc == 0x0204#16) = true := by decide
/-- V2.2.17 -/
theorem test_seReg_equal : does 0x5230#16 [(2#4, 0x07#8), (3#4, 0x07#8)] base (fun t => t.pc == 0x0204#16) = true := by decide
/-- V2.2.18 -/
theorem test_seReg_unequal : does 0x5230#16 [(2#4, 0x07#8), (3#4, 0x08#8)] base (fun t => t.pc == 0x0202#16) = true := by decide
/-- V2.2.20 -/
theorem test_sneReg_unequal : does 0x9230#16 [(2#4, 0x07#8), (3#4, 0x08#8)] base (fun t => t.pc == 0x0204#16) = true := by decide
/-- V2.2.21 -/
theorem test_sneReg_same : does 0x9220#16 [] base (fun t => t.pc == 0x0202#16) = true := by decide

/-! #### Load, arithmetic, logic -/

/-- V2.3.1 -/
theorem test_ldImm : does 0x637F#16 [(15#4, 0x07#8)] base (fun t => t.reg 3#4 == 0x7F#8 && t.reg 15#4 == 0x07#8) = true := by decide
/-- V2.3.4 -/
theorem test_addImm_no_flag : does 0x7101#16 [(1#4, 0xFF#8), (15#4, 0x00#8)] base (fun t => t.reg 1#4 == 0x00#8 && t.reg 15#4 == 0x00#8) = true := by decide
/-- V2.3.7 -/
theorem test_ldReg : does 0x8120#16 [(1#4, 0x00#8), (2#4, 0x9C#8)] base (fun t => t.reg 1#4 == 0x9C#8 && t.reg 2#4 == 0x9C#8) = true := by decide
/-- V2.3.9 -/
theorem test_orReg : does 0x8121#16 [(1#4, 0xF0#8), (2#4, 0x0F#8), (15#4, 0x07#8)] base (fun t => t.reg 1#4 == 0xFF#8 && t.reg 15#4 == 0x07#8) = true := by decide
/-- V2.3.10 -/
theorem test_andReg : does 0x8122#16 [(1#4, 0xCC#8), (2#4, 0xAA#8), (15#4, 0x07#8)] base (fun t => t.reg 1#4 == 0x88#8 && t.reg 15#4 == 0x07#8) = true := by decide
/-- V2.3.11 -/
theorem test_xorReg : does 0x8123#16 [(1#4, 0xCC#8), (2#4, 0xAA#8), (15#4, 0x07#8)] base (fun t => t.reg 1#4 == 0x66#8 && t.reg 15#4 == 0x07#8) = true := by decide
/-- V2.3.13 -/
theorem test_addReg_carry : does 0x8124#16 [(1#4, 0xFF#8), (2#4, 0x01#8)] base (fun t => t.reg 1#4 == 0x00#8 && t.reg 15#4 == 0x01#8) = true := by decide
/-- V2.3.19 -/
theorem test_addReg_flag_wins : does 0x8F14#16 [(15#4, 0xFF#8), (1#4, 0x01#8)] base (fun t => t.reg 15#4 == 0x01#8) = true := by decide
/-- V2.3.23 -/
theorem test_subReg_borrow : does 0x8125#16 [(1#4, 0x03#8), (2#4, 0x05#8)] base (fun t => t.reg 1#4 == 0xFE#8 && t.reg 15#4 == 0x00#8) = true := by decide
/-- V2.3.24 -/
theorem test_subReg_equal : does 0x8125#16 [(1#4, 0x05#8), (2#4, 0x05#8)] base (fun t => t.reg 1#4 == 0x00#8 && t.reg 15#4 == 0x01#8) = true := by decide
/-- V2.3.29 -/
theorem test_subnReg : does 0x8127#16 [(1#4, 0x03#8), (2#4, 0x05#8)] base (fun t => t.reg 1#4 == 0x02#8 && t.reg 15#4 == 0x01#8) = true := by decide
/-- V2.3.30 -/
theorem test_subnReg_borrow : does 0x8127#16 [(1#4, 0x05#8), (2#4, 0x03#8)] base (fun t => t.reg 1#4 == 0xFE#8 && t.reg 15#4 == 0x00#8) = true := by decide
/-- V2.3.32 -/
theorem test_shr_vx : does 0x8126#16 [(1#4, 0x05#8), (2#4, 0xAA#8)] base (fun t => t.reg 1#4 == 0x02#8 && t.reg 2#4 == 0xAA#8 && t.reg 15#4 == 0x01#8) = true := by decide
/-- V2.3.35 -/
theorem test_shr_vy : does 0x8126#16 [(1#4, 0x00#8), (2#4, 0xFF#8)] { base with params := ⟨63, 31, .vy, 0⟩ } (fun t => t.reg 1#4 == 0x7F#8 && t.reg 2#4 == 0xFF#8 && t.reg 15#4 == 0x01#8) = true := by decide
/-- V2.3.36 -/
theorem test_shl_vx : does 0x812E#16 [(1#4, 0x81#8)] base (fun t => t.reg 1#4 == 0x02#8 && t.reg 15#4 == 0x01#8) = true := by decide
/-- V2.3.44 -/
theorem test_shl_vf : does 0x8FFE#16 [(15#4, 0x7F#8)] base (fun t => t.reg 15#4 == 0x00#8) = true := by decide

/-! #### I, BCD, block transfers -/

/-- V2.4.2 -/
theorem test_ldI : does 0xAFFF#16 [] base (fun t => t.i == 0x0FFF#16) = true := by decide
/-- V2.4.4 -/
theorem test_addI_past_memory : does 0xF21E#16 [(2#4, 0x01#8)] { base with i := 0x0FFF#16 } (fun t => t.i == 0x1000#16 && t.fcause == .none && t.reg 15#4 == 0x00#8) = true := by decide
/-- V2.4.5 -/
theorem test_addI_wraps : does 0xF21E#16 [(2#4, 0x01#8)] { base with i := 0xFFFF#16 } (fun t => t.i == 0x0000#16) = true := by decide
/-- V2.4.8 -/
theorem test_ldF : does 0xF329#16 [(3#4, 0x0F#8)] { base with params := ⟨63, 31, .vx, 0x050⟩ } (fun t => t.i == 0x009B#16) = true := by decide
/-- V2.4.7 -/
theorem test_ldF_low_nibble : does 0xF329#16 [(3#4, 0x1A#8)] base (fun t => t.i == 0x0032#16) = true := by decide
/-- V2.4.12 -/
theorem test_ldB_top : does 0xF033#16 [(0#4, 0xEA#8)] { base with i := 0x0FFD#16 } (fun t => t.readByte 0xFFD == 2#8 && t.readByte 0xFFE == 3#8 && t.readByte 0xFFF == 4#8) = true := by decide
/-- V2.4.13 -/
theorem test_ldB_past : does 0xF033#16 [(0#4, 0xEA#8)] { base with i := 0x0FFE#16 } (fun t => t.fcause == .memBound && t.finfo == 0x1000#16 && t.fepc == 0x0200#16 && t.readByte 0xFFE == 0#8 && t.pc == 0x0202#16) = true := by decide
/-- V2.4.19 -/
theorem test_storeRegs : does 0xF355#16 [(0#4, 0x01#8), (1#4, 0x02#8), (2#4, 0x03#8), (3#4, 0x04#8)] { base with i := 0x0FFC#16 } (fun t => t.readByte 0xFFC == 1#8 && t.readByte 0xFFF == 4#8 && t.i == 0x0FFC#16) = true := by decide
/-- V2.4.20 -/
theorem test_storeRegs_past : does 0xF355#16 [(0#4, 0x01#8), (1#4, 0x02#8), (2#4, 0x03#8), (3#4, 0x04#8)] { base with i := 0x0FFD#16 } (fun t => t.fcause == .memBound && t.finfo == 0x1000#16 && t.readByte 0xFFD == 0#8) = true := by decide
/-- S7 -/
theorem test_loadRegs : does 0xF365#16 [(4#4, 0x09#8)] (bytes 0x300 [1#8, 2#8, 3#8, 4#8, 5#8] { base with i := 0x0300#16 }) (fun t => t.reg 0#4 == 0x01#8 && t.reg 3#4 == 0x04#8 && t.reg 4#4 == 0x09#8 && t.i == 0x0300#16) = true := by decide
/-- V2.4.21 -/
theorem test_loadRegs_past : does 0xF365#16 [(0#4, 0x09#8), (1#4, 0x09#8), (2#4, 0x09#8), (3#4, 0x09#8)] { base with i := 0x0FFD#16 } (fun t => t.fcause == .memBound && t.reg 0#4 == 0x09#8 && t.reg 3#4 == 0x09#8) = true := by decide

/-! #### Random, timers -/

/-- V2.5.1 -/
theorem test_rnd : does 0xC70F#16 [(15#4, 0x07#8)] { base with inputs := [{ quiet with rnd := 0xA7#8 }] } (fun t => t.reg 7#4 == 0x07#8 && t.reg 15#4 == 0x07#8) = true := by decide
/-- V2.5.4 -/
theorem test_ldVxDt : does 0xF307#16 [] { base with dt := 0x2A#8 } (fun t => t.reg 3#4 == 0x2A#8 && t.dt == 0x2A#8) = true := by decide
/-- V2.5.5 -/
theorem test_ldDtVx : does 0xF315#16 [(3#4, 0x3C#8)] base (fun t => t.dt == 0x3C#8) = true := by decide
/-- V2.5.6 -/
theorem test_ldStVx : does 0xF318#16 [(3#4, 0x02#8)] base (fun t => t.st == 2#8 && !t.buz) = true := by decide

/-! #### Display: the lit pixels by their keys, row * 64 + column -/

/-- V2.6.1 -/
theorem test_cls : does 0x00E0#16 [(15#4, 0x01#8)] { base with display := [(0, true), (70, true)] } (fun t => t.display == [] && t.reg 15#4 == 0x01#8) = true := by decide
/-- V2.6.4 -/
theorem test_drw_clipped_right : does 0xD011#16 [(0#4, 0x7E#8), (1#4, 0x21#8)] (bytes 0x300 [0xFF#8] { base with i := 0x0300#16 }) (fun t => t.display == [(126, true), (127, true)] && t.reg 15#4 == 0x00#8) = true := by decide
/-- V2.6.6 -/
theorem test_drw_collision : does 0xD011#16 [] (bytes 0x300 [0xC0#8] { base with i := 0x0300#16, display := [(1, true)] }) (fun t => t.display == [(0, true)] && t.reg 15#4 == 0x01#8) = true := by decide

/-! #### Keypad -/

/-- V2.7.1: key 5 is down -/
theorem test_skp_down : does 0xE19E#16 [(1#4, 0x05#8)] { base with inputs := [{ quiet with keys := 0x20#256 }] } (fun t => t.pc == 0x0204#16) = true := by decide
/-- V2.7.2 -/
theorem test_skp_up : does 0xE19E#16 [(1#4, 0x05#8)] base (fun t => t.pc == 0x0202#16) = true := by decide
/-- V2.7.3 -/
theorem test_sknp_up : does 0xE1A1#16 [(1#4, 0x05#8)] base (fun t => t.pc == 0x0204#16) = true := by decide
/-- V2.7.4 -/
theorem test_sknp_down : does 0xE1A1#16 [(1#4, 0x05#8)] { base with inputs := [{ quiet with keys := 0x20#256 }] } (fun t => t.pc == 0x0202#16) = true := by decide
/-- V2.7.6 -/
theorem test_ldVxK : does 0xF30A#16 [(3#4, 0x77#8)] base (fun t => t.waitkey && t.waitreg == 3#4 && t.reg 3#4 == 0x77#8 && t.pc == 0x0202#16) = true := by decide

/-! #### The other steps -/

/-- A pending key wait for V3 (the end of V2.7.6). -/
def waiting : State := regs [(3#4, 0x77#8)] { base with pc := 0x0202#16, waitkey := true, waitreg := 3#4 }

/-- V2.7.9 -/
theorem test_keyEvent : after { waiting with inputs := [{ quiet with keyEvent := true }] }
    (fun t => t.reg 3#4 == 0x01#8 && !t.waitkey && t.pc == 0x0202#16) = true := by decide
/-- V2.7.11 -/
theorem test_keyCancel : after { waiting with inputs := [{ quiet with kwCancel := true }] }
    (fun t => !t.waitkey && t.fcause == .peripheralFailure && t.fepc == 0x0200#16 && t.finfo == 0x0000#16 && t.reg 3#4 == 0x77#8) = true := by
  decide
/-- V2.7.14 -/
theorem test_keyEvent_after_fault : after { base with fcause := .peripheralFailure, inputs := [{ quiet with keyEvent := true }] }
    (fun t => t.reg 0#4 == 0x00#8 && t.fcause == .peripheralFailure) = true := by decide
/-- V2.7.8 -/
theorem test_timer_in_wait : after { waiting with tpend := true, dt := 3#8 } (fun t => t.dt == 2#8 && t.waitkey) = true := by decide
/-- V2.5.11 -/
theorem test_timer : after { base with tpend := true, dt := 0xFF#8, st := 3#8, buz := true }
    (fun t => t.dt == 0xFE#8 && t.st == 2#8 && t.buz) = true := by decide
/-- V2.5.8 and V2.5.10 -/
theorem test_timer_at_zero : after { base with tpend := true, dt := 0#8, st := 1#8, buz := true }
    (fun t => t.dt == 0#8 && t.st == 0#8 && !t.buz) = true := by decide
/-- V2.8.1 -/
theorem test_fetch_last_word : after (word 0x1200#16 { base with pc := 0x0FFE#16 }) (fun t => t.pc == 0x0200#16) = true := by decide
/-- V2.8.2 -/
theorem test_fetch_past : after { base with pc := 0x0FFF#16 }
    (fun t => t.fcause == .memBound && t.finfo == 0x1000#16 && t.fepc == 0x0FFF#16 && t.pc == 0x0FFF#16) = true := by decide
/-- V2.2.13, second step -/
theorem test_fetch_far_past : after { base with pc := 0x10FE#16 }
    (fun t => t.fcause == .memBound && t.finfo == 0x10FE#16 && t.fepc == 0x10FE#16 && t.pc == 0x10FE#16) = true := by decide
/-- V2.8.5 -/
theorem test_illegal : after (word 0x5121#16 base)
    (fun t => t.fcause == .decodeFailure && t.finfo == 0x5121#16 && t.fepc == 0x0200#16 && t.pc == 0x0202#16) = true := by decide
/-- V2.8.8 -/
theorem test_timer_first : after { base with tpend := true, dt := 2#8 }
    (fun t => t.dt == 1#8 && t.ipend && !t.tpend && t.pc == 0x0200#16) = true := by decide
/-- V2.8.9 -/
theorem test_idle_in_wait : after waiting (fun t => t.ipend && t.waitkey && t.pc == 0x0202#16) = true := by decide
/-- V2.8.11: an event while the latch is set is merged with the first -/
theorem test_latch_merges : after { base with fcause := .memBound, inputs := [{ quiet with itick := true }] } (fun t => t.ipend) = true := by
  decide
/-- V2.8.12 -/
theorem test_reset : after { regs [(1#4, 5#8)] waiting with fcause := .memBound, display := [(3, true)], inputs := [{ quiet with rst := true }] }
    (fun t => t.pc == 0x0200#16 && t.reg 1#4 == 0#8 && t.fcause == .none && !t.waitkey && t.display == [(3, true)]) = true := by decide
/-- R51: while `run = 0` the load port writes one byte -/
theorem test_loadPort : after { base with inputs := [loadPins 0x200#12 0xAB#8] } (fun t => t.readByte 0x200 == 0xAB#8 && t.ipend) = true := by
  decide
/-- R150: one pulse on `disp_clr` -/
theorem test_ports_cls : (word 0x00E0#16 base).edgeCycles = [.clear] := by decide
/-- V2.7.5: the full key number 45 is presented -/
theorem test_ports_skp : (regs [(1#4, 0x45#8)] (word 0xE19E#16 base)).edgeCycles.map (fun p => p.levels.keyIdx) = [some 0x45#8] := by decide
/-- V2.6.6 with R153: the lit pixel (1,0) is read and cleared, the dark pixel (0,0) read and set, no other is touched -/
theorem test_ports_drw : (word 0xD011#16 (bytes 0x300 [0xC0#8] { base with i := 0x0300#16, display := [(1, true)] })).edgeCycles =
    [.read 0 0, .write 0 0 true, .read 1 0, .write 1 0 false] := by decide
/-- V2.6.13: a draw whose bound check fails drives nothing -/
theorem test_ports_drw_past : (word 0xD01F#16 (regs [(1#4, 0x1F#8)] { base with i := 0x0FF8#16 })).edgeCycles = [] := by decide
/-- R126, P6: the font has 80 bytes, and with `FONT_BASE = 0` the bytes 0x23 to 0x27 are glyph 7 -/
theorem test_font : fontTable.length = 80 ∧ (fontTable.drop 0x23).take 5 = [0xF0#8, 0x10#8, 0x20#8, 0x40#8, 0x40#8] := by decide
/-- `withFetchWord` from the state after reset: the very next step runs the word (1234 is JP 0x234, V2.2.3) -/
theorem test_withFetchWord : after (State.reset.withFetchWord 16 0x1234) (fun t => t.pc == 0x0234#16) = true := by decide

/-! ### Witnesses: the hypotheses of every statement that has any can be met, each clause at the edge of its range -/

theorem witness_JumpAndSystemFormSetThePc : (0x0E1#12 : Addr12) ≠ 0x0E0#12 ∧ (0x0E1#12 : Addr12) ≠ 0x0EE#12 := by decide

/-- SP 15 pushes, SP 16 faults. -/
theorem witness_CallPushesTheReturnAddress :
    ({ base with sp := 15 } : State).sp.val < 16 ∧ ({ base with sp := 16 } : State).sp.val = 16 := by decide

/-- SP 16 and SP 1 pop, SP 0 faults. -/
theorem witness_ReturnPopsTheReturnAddress :
    ({ base with sp := 16 } : State).sp.val = (15 : Fin 16).val + 1 ∧ ({ base with sp := 1 } : State).sp.val = (0 : Fin 16).val + 1 ∧
      base.sp.val = 0 := by decide

theorem witness_RegisterSkipsCompare : (1#4 : Nibble) ≠ 0#4 ∧ (15#4 : Nibble) ≠ 0#4 := by decide

theorem witness_destination_not_VF : (14#4 : RegIdx) ≠ VF := by decide

/-- Both settings of SHIFT_SRC, with the value shifted. -/
theorem witness_ShiftsMoveOneBitOut :
    (∃ (s : State) (v : Byte), s.params.shiftSrc = .vx ∧ v = s.reg 1#4) ∧ ∃ (s : State) (v : Byte), s.params.shiftSrc = .vy ∧ v = s.reg 2#4 :=
  ⟨⟨base, _, rfl, rfl⟩, ⟨{ base with params := ⟨63, 31, .vy, 0⟩ }, _, rfl, rfl⟩⟩

theorem witness_DecimalDigitsAreStored :
    ({ base with i := 4093#16 } : State).i.toNat ≤ 4093 ∧ 4094 ≤ ({ base with i := 4094#16 } : State).i.toNat := by decide

theorem witness_RegistersAreStored_and_Loaded :
    ({ base with i := 4080#16 } : State).i.toNat + (15#4 : RegIdx).toNat ≤ 4095 ∧
    4095 < ({ base with i := 4081#16 } : State).i.toNat + (15#4 : RegIdx).toNat := by decide

theorem witness_RandomByteIsMasked : ({ base with inputs := [{ quiet with rnd := 0xA7#8 }] } : State).pins.rnd = 0xA7#8 := by decide

/-- The empty sprite anywhere, the last sprite that fits, the first that does not. -/
theorem witness_DrawXorsTheSprite :
    ((0#4 : Nibble) = 0#4) ∧ ({ base with i := 4081#16 } : State).i.toNat + (15#4 : Nibble).toNat ≤ 4096 ∧
    (15#4 : Nibble) ≠ 0#4 ∧ 4096 < ({ base with i := 4082#16 } : State).i.toNat + (15#4 : Nibble).toNat := by decide

theorem witness_DrawTwiceRestoresTheDisplay : ∃ (x y : RegIdx) (n : Nibble) (s : State),
    s.display.wf s.params ∧ x ≠ VF ∧ y ≠ VF ∧ (n = 0#4 ∨ s.i.toNat + n.toNat ≤ 4096) :=
  ⟨0#4, 1#4, 1#4, { base with i := 0x0FFF#16, display := [(0, true), (2047, true)] }, by decide, by decide, by decide, by decide⟩

theorem witness_KeySkipsAskTheKeypad :
    ({ base with inputs := [{ quiet with keys := 0x20#256 }] } : State).pins.keys.getLsbD 5 = true ∧ base.pins.keys.getLsbD 255 = false := by
  decide

/-- Ticks of both kinds come, no event and no cancel: with a pause, and with `run = 1` throughout. -/
theorem witness_KeyWaitBeginsAndHoldsTheCpu :
    (∀ p ∈ [{ quiet with itick := true, ttick := true }, { quiet with run := false }],
      p.rst = false ∧ p.keyEvent = false ∧ p.kwCancel = false) ∧
    ∀ p ∈ [{ quiet with itick := true, ttick := true }, quiet],
      p.rst = false ∧ p.keyEvent = false ∧ p.kwCancel = false ∧ p.run = true := by decide

/-- With the scheduler live and with `run = 0`. -/
theorem witness_KeyEventResolvesTheWait :
    KeyEventTurn { waiting with inputs := [{ quiet with keyEvent := true, kwCancel := true }] } ∧
    KeyEventTurn { waiting with inputs := [{ quiet with keyEvent := true, run := false }] } := by decide

theorem witness_KeyCancelBecomesAFault :
    KeyCancelTurn { waiting with inputs := [{ quiet with kwCancel := true }] } ∧
    KeyCancelTurn { waiting with inputs := [{ quiet with kwCancel := true, run := false }] } := by decide

theorem witness_KeyStrobeWithoutWaitHasNoEffect :
    base.inputs = quiet :: [quiet] ∧ base.waitkey = false ∧ ({ waiting with fcause := .memBound } : State).fcause ≠ .none := by decide

/-- Healthy, in a key wait, and with a fault recorded. -/
theorem witness_TimerStepCountsDown :
    TimerTurn { base with tpend := true } ∧ TimerTurn { waiting with tpend := true } ∧
    TimerTurn { base with tpend := true, fcause := .memBound } := by decide

theorem witness_TickLatchesKeepOneEvent : base.pins.rst = false := by decide

/-- A pending instruction tick held by a wait, and one held by a fault. -/
theorem witness_IdleTurnChangesOnlyTheLatches :
    (waiting.pins.rst = false ∧ waiting.pins.run = true ∧ ¬ KeyEventTurn waiting ∧ ¬ KeyCancelTurn waiting ∧ ¬ TimerTurn waiting ∧
      ¬ CpuTurn waiting ∧ waiting.ipend = true) ∧
    ∃ s : State, s.pins.rst = false ∧ s.pins.run = true ∧ ¬ KeyEventTurn s ∧ ¬ KeyCancelTurn s ∧ ¬ TimerTurn s ∧ ¬ CpuTurn s ∧
      s.ipend = true ∧ s.fcause ≠ .none :=
  ⟨by decide, { base with fcause := .memBound }, by decide⟩

/-- A paused edge with both ticks pending: the port idle, and the port writing the last cell. -/
theorem witness_IdleTurnChangesOnlyTheLatches_paused :
    (∃ s : State, s.pins.rst = false ∧ s.pins.run = false ∧ ¬ KeyEventTurn s ∧ ¬ KeyCancelTurn s ∧ s.ipend = true ∧ s.tpend = true ∧
      s.pins.ldWe = false) ∧
    ∃ s : State, s.pins.rst = false ∧ s.pins.run = false ∧ ¬ KeyEventTurn s ∧ ¬ KeyCancelTurn s ∧
      ¬ (s.pins.ldWe = true ∧ 4094 = s.pins.ldAddr.toNat) :=
  ⟨⟨{ base with tpend := true, inputs := [{ quiet with run := false }] }, by decide⟩,
    ⟨{ base with inputs := [loadPins 0xFFF#12 1#8] }, by decide⟩⟩

theorem witness_TimerTickGoesFirst : ∃ (s : State) (p q : Pins) (rest : List Pins), s.inputs = p :: q :: rest ∧
    p.rst = false ∧ p.run = true ∧ p.ttick = false ∧ q.rst = false ∧ q.run = true ∧
    s.tpend = true ∧ s.ipend = true ∧ s.fcause = .none ∧ s.waitkey = false :=
  ⟨{ base with tpend := true }, quiet, quiet, [], by decide⟩

/-- The first address that cannot be fetched, an illegal word and a legal word at the last one that can. -/
theorem witness_StepRunsTheDecodedInstruction :
    (CpuTurn { base with pc := 4095#16 } ∧ 4094 < ({ base with pc := 4095#16 } : State).pc.toNat) ∧
    (∃ (s : State) (e : DecodeError), CpuTurn s ∧ s.pc.toNat = 4094 ∧
      decodeWord (s.readByte s.pc.toNat ++ s.readByte (s.pc.toNat + 1)) = .error e) ∧
    (∃ (s : State) (i : Instr), CpuTurn s ∧ s.pc.toNat = 4094 ∧
      decodeWord (s.readByte s.pc.toNat ++ s.readByte (s.pc.toNat + 1)) = .ok i) :=
  ⟨by decide, ⟨word 0x5AB1#16 { base with pc := 4094#16 }, .illegal 0x5AB1#16, by decide⟩,
    ⟨word 0x1200#16 { base with pc := 4094#16 }, .jp 0x200#12, by decide⟩⟩

/-- No instruction has the word 5AB1 (V2.1). -/
theorem test_no_instruction_encodes_5AB1 (i : Instr) : encode i ≠ 0x5AB1#16 := by
  intro h
  have hop := congrArg fieldOp h
  have hn := congrArg fieldN h
  cases i <;> simp only [encode, fieldOp_packNNN, fieldOp_packXKK, fieldOp_packXYN, fieldN_packXYN] at hop hn <;>
    first | exact absurd hop (by decide) | exact absurd hn (by decide)

theorem witness_IllegalWordRaisesDecodeFailure : ∃ (s : State) (w : Word),
    CpuTurn s ∧ s.pc.toNat ≤ 4094 ∧ s.fetchWord = w ∧ ∀ i, encode i ≠ w :=
  ⟨word 0x5AB1#16 base, 0x5AB1#16, by decide, by decide, by decide, test_no_instruction_encodes_5AB1⟩

theorem witness_AccessPastMemoryRaisesMemBound :
    4093 < ({ base with i := 4094#16 } : State).i.toNat ∧
    4095 < ({ base with i := 4096#16 } : State).i.toNat + (0#4 : RegIdx).toNat ∧
    (1 ≤ (1#4 : Nibble).toNat ∧ 4095 < ({ base with i := 4096#16 } : State).i.toNat + (1#4 : Nibble).toNat - 1) ∧
    (CpuTurn { base with pc := 4095#16 } ∧ 4094 < ({ base with pc := 4095#16 } : State).pc.toNat) := by decide

theorem witness_FaultsArePrecise : ∃ s t : State, CpuTurn s ∧ step s = .next t ∧ t.fcause ≠ .none :=
  ⟨word 0x00EE#16 base, _, by decide, rfl, by decide⟩

theorem witness_RecordedFaultHoldsTheCpu :
    (({ base with fcause := .memBound } : State).fcause ≠ .none ∧ ({ base with fcause := .memBound } : State).pins.rst = false ∧
      ({ base with fcause := .memBound } : State).pins.run = true) ∧
    ({ base with fcause := .memBound, inputs := [loadPins 0#12 1#8] } : State).pins.run = false := by decide

/-- No instruction tick; one past memory; an illegal and a legal word at the last address that can be fetched; the empty sprite, the last
sprite that fits and the first that does not; an instruction that uses no port. -/
theorem witness_OutputPortsFollowStateAndStep :
    ¬ CpuTurn waiting ∧ (CpuTurn { base with pc := 4095#16 } ∧ 4094 < ({ base with pc := 4095#16 } : State).pc.toNat) ∧
    (∃ (s : State) (e : DecodeError), CpuTurn s ∧ s.pc.toNat = 4094 ∧ decodeWord s.fetchWord = .error e) ∧
    (∃ (s : State) (i : Instr), CpuTurn s ∧ s.pc.toNat = 4094 ∧ decodeWord s.fetchWord = .ok i) ∧
    ((0#4 : Nibble) = 0#4 ∧ ({ base with i := 4081#16 } : State).i.toNat + (15#4 : Nibble).toNat ≤ 4096) ∧
    ((15#4 : Nibble) ≠ 0#4 ∧ 4096 < ({ base with i := 4082#16 } : State).i.toNat + (15#4 : Nibble).toNat) ∧
    ∃ i : Instr, i ≠ .cls ∧ (∀ x, i ≠ .skp x) ∧ (∀ x, i ≠ .sknp x) ∧ ∀ x y n, i ≠ .drw x y n :=
  ⟨by decide, by decide, ⟨word 0x5AB1#16 { base with pc := 4094#16 }, .illegal 0x5AB1#16, by decide⟩,
    ⟨word 0x00E0#16 { base with pc := 4094#16 }, .cls, by decide⟩, by decide, by decide,
    ⟨.ret, by simp, by simp, by simp, by simp⟩⟩

theorem witness_ResetRestoresTheBlock : ({ waiting with inputs := [{ quiet with rst := true }] } : State).pins.rst = true := by decide

/-- A write to the last cell, a paused edge that writes nothing, and an edge with `run = 1`. -/
theorem witness_LoadPortWritesOnlyWhilePaused :
    (∃ s : State, s.pins.rst = false ∧ s.pins.run = false ∧ s.pins.ldWe = true ∧ 4095 = s.pins.ldAddr.toNat) ∧
    (∃ s : State, s.pins.rst = false ∧ s.pins.run = false ∧ s.pins.ldWe = false) ∧
    ∃ (s : State) (p : Pins) (rest : List Pins), s.inputs = p :: rest ∧ p.run = true :=
  ⟨⟨{ base with inputs := [loadPins 0xFFF#12 1#8] }, by decide⟩, ⟨{ base with inputs := [{ quiet with run := false }] }, by decide⟩,
    ⟨base, quiet, [quiet], rfl, rfl⟩⟩

/-- An image that fills memory from 512 to its end. -/
theorem witness_LoadedImageStandsAt512 : ∃ (img : List Byte) (s : State) (rest : List Pins),
    img.length = 3584 ∧ s.inputs = loadSchedule 512 img ++ rest :=
  ⟨List.replicate 3584 0xAB#8, { base with inputs := loadSchedule 512 (List.replicate 3584 0xAB#8) ++ [quiet] }, [quiet],
    List.length_replicate, rfl⟩

theorem witness_DecodeInvertsEncode : (Instr.sys 0x0E1#12).wellFormed = true ∧ (Instr.drw 15#4 15#4 15#4).wellFormed = true := by decide

theorem witness_EncodeInvertsDecode : ∃ (w : Word) (i : Instr), decodeWord w = .ok i := ⟨0xFF65#16, .loadRegs 15#4, by decide⟩

/-- A state deep in a run, with memory, pixels and a call outstanding. -/
theorem witness_EveryStepKeepsTheInvariant : ∃ s t : State, Inv s ∧ step s = .next t :=
  ⟨word 0x00EE#16 { base with sp := 1, stack := base.stack.set 0 0x0202#16, display := [(0, true), (2047, true)] }, _,
    { mem := by decide, display := by decide, pc := by decide, slots := by decide, held := by decide, record := by decide, noWait := by decide },
    rfl⟩

theorem witness_OnlyStoresWriteMemory :
    (∃ s t : State, exec (.ldB 0#4) s = .next t ∧ t.readByte 4095 ≠ s.readByte 4095) ∧
    ∃ s t : State, exec (.storeRegs 15#4) s = .next t ∧ t.readByte 4095 ≠ s.readByte 4095 :=
  ⟨⟨regs [(0#4, 0xEA#8)] { base with i := 4093#16 }, _, rfl, by decide⟩,
    ⟨regs [(15#4, 0xEA#8)] { base with i := 4080#16 }, _, rfl, by decide⟩⟩

theorem witness_OnlyCallAndReturnTouchTheStack : ∃ s t : State, exec (.call 0x300#12) s = .next t ∧ t.sp ≠ s.sp ∧ t.stack ≠ s.stack :=
  ⟨{ base with sp := 15 }, _, rfl, by decide⟩

/-- A named destination, and VF as a flag. -/
theorem witness_OnlyNamedRegistersChange : ∃ s t : State, exec (.addReg 1#4 2#4) s = .next t ∧ t.reg 1#4 ≠ s.reg 1#4 ∧ t.reg VF ≠ s.reg VF :=
  ⟨regs [(1#4, 0xFF#8), (2#4, 1#8)] base, _, rfl, by decide⟩

theorem witness_FlagRegisterHoldsZeroOrOne :
    (∃ s t : State, exec (.drw 0#4 1#4 1#4) s = .next t ∧ s.fcause = .none ∧ writesFlag (.drw 0#4 1#4 1#4) = true ∧ t.fcause = .none) ∧
    ∃ s t : State, exec (.ldImm 14#4 5#8) s = .next t ∧ s.fcause = .none ∧ writesFlag (.ldImm 14#4 5#8) = false ∧
      namesDest VF (.ldImm 14#4 5#8) = false :=
  ⟨⟨base, _, rfl, by decide⟩, ⟨base, _, rfl, by decide⟩⟩

theorem witness_SpecialRegistersHaveTheirWriters :
    (∃ s t : State, exec (.ldI 1#12) s = .next t ∧ t.i ≠ s.i) ∧ (∃ s t : State, exec (.ldDtVx 0#4) s = .next t ∧ t.dt ≠ s.dt) ∧
    (∃ s t : State, exec (.ldStVx 0#4) s = .next t ∧ t.st ≠ s.st) ∧ (∃ s t : State, exec (.ldVxK 1#4) s = .next t ∧ t.waitkey ≠ s.waitkey) ∧
    ∃ s t : State, exec .cls s = .next t ∧ t.display ≠ s.display :=
  ⟨⟨base, _, rfl, by decide⟩, ⟨{ base with dt := 1#8 }, _, rfl, by decide⟩, ⟨{ base with st := 1#8 }, _, rfl, by decide⟩,
    ⟨base, _, rfl, by decide⟩, ⟨{ base with display := [(0, true)] }, _, rfl, by decide⟩⟩

/-- The inputs of this edge the same, those to come and the count others. -/
theorem witness_HiddenStateIsOutOfReach : ∃ (s t : State) (ps : List Pins) (c : Nat),
    exec (.rnd 1#4 0xFF#8) s = .next t ∧ ({ s with inputs := ps, cycle := c } : State).pins = s.pins ∧ ps ≠ s.inputs ∧ c ≠ s.cycle :=
  ⟨base, _, [quiet, { quiet with rnd := 1#8 }], 7, rfl, by decide, by decide, by decide⟩

theorem witness_InputsReachOnlyThreeInstructions : ∃ (i : Instr) (s t : State),
    (∀ x kk, i ≠ .rnd x kk) ∧ (∀ x, i ≠ .skp x) ∧ (∀ x, i ≠ .sknp x) ∧ exec i s = .next t :=
  ⟨.cls, base, _, by simp, by simp, by simp, rfl⟩

theorem witness_ReturnComesBackToTheCall : ({ base with sp := 15 } : State).sp.val < 16 := by decide

theorem witness_StoresReachTheNextFetch : ∃ (x : RegIdx) (s : State), 1 ≤ x.toNat ∧ s.i = s.pc ∧ s.i.toNat + x.toNat ≤ 4095 :=
  ⟨1#4, { base with i := 4094#16, pc := 4094#16 }, by decide⟩

theorem witness_ParkedProgramStaysParked : ∃ (a : Addr12) (s : State), Parked a s ∧ CpuTurn s :=
  ⟨0xFFE#12, word 0x1FFE#16 { base with pc := 4094#16 }, by decide⟩

end Sys2Proof.Tests.Slice0
end

section
/-! SUPPORT. O36: what the output ports show, which edges drive the ports to the display and the keypad, and the cycles of a draw as those
of the pixels under its set sprite bits. -/

namespace Sys2Proof.Machine

/-! ### The ports that show state (R5, R190) -/

theorem Cause.code_eq_zero_iff (c : Cause) : c.code = 0#3 ↔ c = .none := by cases c <;> decide

theorem Cause.code_toNat_le (c : Cause) : c.code.toNat ≤ 5 := by cases c <;> decide

theorem outputs_fault_iff (s : State) : s.outputs.fault = true ↔ s.outputs.fcause ≠ 0#3 := by
  simp [State.outputs, Cause.code_eq_zero_iff]

/-! ### Which edges drive the ports to the display and the keypad (R170) -/

theorem edgeCycles_eq_nil {s : State}
    (h : ¬ CpuTurn s ∨ lastFetch < s.pc.toNat ∨ ∃ e, decodeWord s.fetchWord = .error e) : s.edgeCycles = [] := by
  obtain ⟨i, hcpu, hpc, hok, -⟩ | ⟨-, hnil⟩ := edgeCycles_cases s
  · obtain hn | hn | ⟨e, he⟩ := h
    · exact absurd hcpu hn
    · exact absurd hn (Nat.not_lt.2 hpc)
    · exact nomatch hok.symm.trans he
  · exact hnil

theorem edgeCycles_of_ok {s : State} {i : Instr} (hcpu : CpuTurn s) (hpc : s.pc.toNat ≤ lastFetch)
    (hok : decodeWord s.fetchWord = .ok i) : s.edgeCycles = portCycles i ({ s with ipend := false } : State).advancePc := by
  obtain ⟨j, -, -, hj, heq⟩ | ⟨hn | hn | ⟨e, he⟩, -⟩ := edgeCycles_cases s
  · rwa [Except.ok.inj (hok.symm.trans hj)]
  · exact absurd hcpu hn
  · exact absurd hn (Nat.not_lt.2 hpc)
  · exact nomatch hok.symm.trans he

/-- An instruction that reaches no peripheral drives nothing. -/
theorem portCycles_eq_nil {i : Instr} (s : State) (hcls : i ≠ .cls) (hskp : ∀ x, i ≠ .skp x) (hsknp : ∀ x, i ≠ .sknp x)
    (hdrw : ∀ x y n, i ≠ .drw x y n) : portCycles i s = [] := by
  cases i with
  | cls => exact absurd rfl hcls
  | skp x => exact absurd rfl (hskp x)
  | sknp x => exact absurd rfl (hsknp x)
  | drw x y n => exact absurd rfl (hdrw x y n)
  | _ => rfl

/-! ### The pixels of a draw, in the order they are drawn (R151, Log 14) -/

/-- Pixel `p` comes before pixel `q`: by rows from the top, within a row from the left. -/
abbrev RasterBefore (p q : Nat × Nat) : Prop := p.2 < q.2 ∨ p.2 = q.2 ∧ p.1 < q.1

/-- The pixels of row `r` under the set bits of the sprite byte `b` drawn from column `c0`, inside a grid `w` columns wide. -/
def rowPixels (w : Nat) (b : Byte) (c0 r : Nat) : List (Nat × Nat) :=
  ((List.range 8).filter fun j => decide (c0 + j < w) && b.getLsbD (7 - j)).map fun j => (c0 + j, r)

/-- The pixels of the grid under the set bits of `n` sprite rows at address `a` drawn from (`c0`, `r0`). -/
def spritePixels (s : State) (a c0 r0 n : Nat) : List (Nat × Nat) :=
  ((List.range n).filter fun q => decide (r0 + q < s.params.dispH)).flatMap fun q =>
    rowPixels s.params.dispW (s.readByte (a + q)) c0 (r0 + q)

/-- The cycles of one pixel under a set sprite bit (R153). -/
def pixelCycles (s : State) (p : Nat × Nat) : List PortCycle := [.read p.1 p.2, .write p.1 p.2 (!s.pixRead p.1 p.2)]

theorem mem_rowPixels {w c0 r c r' : Nat} {b : Byte} :
    (c, r') ∈ rowPixels w b c0 r ↔ r' = r ∧ c < w ∧ c0 ≤ c ∧ c < c0 + 8 ∧ b.getLsbD (7 - (c - c0)) = true := by
  simp only [rowPixels, List.mem_map, List.mem_filter, List.mem_range, Bool.and_eq_true, decide_eq_true_eq, Prod.mk.injEq]
  constructor
  · rintro ⟨j, ⟨hj, hw, hb⟩, rfl, rfl⟩
    exact ⟨rfl, hw, by omega, by omega, by rwa [Nat.add_sub_cancel_left]⟩
  · rintro ⟨rfl, hw, hle, hlt, hb⟩
    exact ⟨c - c0, ⟨by omega, by omega, hb⟩, by omega, rfl⟩

theorem mem_spritePixels {s : State} {a c0 r0 n c r : Nat} :
    (c, r) ∈ spritePixels s a c0 r0 n ↔ c < s.params.dispW ∧ r < s.params.dispH ∧ spriteBit s a c0 r0 n c r = true := by
  simp only [spritePixels, spriteBit, List.mem_flatMap, List.mem_filter, List.mem_range, mem_rowPixels, Bool.and_eq_true,
    decide_eq_true_eq]
  constructor
  · rintro ⟨q, ⟨hq, hh⟩, rfl, hw, hle, hlt, hb⟩
    exact ⟨hw, hh, by omega, by rwa [Nat.add_sub_cancel_left]⟩
  · rintro ⟨hw, hh, ⟨hle, hlt, hr0, hr⟩, hb⟩
    exact ⟨r - r0, ⟨by omega, by omega⟩, by omega, hw, hle, hlt, hb⟩

theorem rowPixels_pairwise (w : Nat) (b : Byte) (c0 r : Nat) : (rowPixels w b c0 r).Pairwise RasterBefore :=
  List.pairwise_map.2 <| (List.pairwise_lt_range.filter _).imp fun h => .inr ⟨rfl, Nat.add_lt_add_left h c0⟩

theorem spritePixels_pairwise (s : State) (a c0 r0 n : Nat) : (spritePixels s a c0 r0 n).Pairwise RasterBefore := by
  refine List.pairwise_flatMap.2 ⟨fun q _ => rowPixels_pairwise _ _ _ _, (List.pairwise_lt_range.filter _).imp ?_⟩
  rintro q q' hq ⟨c, r⟩ hp ⟨c', r'⟩ hp'
  obtain ⟨rfl, -⟩ := mem_rowPixels.1 hp
  obtain ⟨rfl, -⟩ := mem_rowPixels.1 hp'
  exact .inl (Nat.add_lt_add_left hq r0)

/-- A draw drives the cycles of its pixels, each as it stood before the draw: no pixel of a draw is under two sprite bits. -/
theorem drawRowsCycles_eq_flatMap_spritePixels (s : State) (a c0 r0 n : Nat) :
    s.drawRowsCycles a c0 r0 n = (spritePixels s a c0 r0 n).flatMap (pixelCycles s) := by
  rw [drawRowsCycles_eq, spritePixels, List.flatMap_assoc]
  refine List.flatMap_congr fun q _ => ?_
  rw [drawPixelsCycles_eq, rowPixels, List.flatMap_map]
  rfl

theorem portCycles_drw_inside (x y : RegIdx) (n : Nibble) (s : State) (h : n = 0#4 ∨ s.i.toNat + n.toNat ≤ memSize) :
    portCycles (.drw x y n) s = (spritePixels s s.i.toNat (s.drawCol x) (s.drawRow y) n.toNat).flatMap (pixelCycles s) := by
  rw [drwCycles_inside x y n s h, drawRowsCycles_eq_flatMap_spritePixels]
  rfl

/-- Settles O36: the state ports by the code of the cause, the step ports by the one kind of edge that drives them and, for a draw, by the
list of its pixels. -/
theorem outputPortsFollowStateAndStep : Obligations.OutputPortsFollowStateAndStep := by
  unfold Obligations.OutputPortsFollowStateAndStep
  refine ⟨fun s => ⟨outputs_fault_iff s, s.fcause.code_toNat_le, rfl, rfl, rfl, rfl⟩,
    fun s h => edgeCycles_eq_nil (.inl h),
    fun s _ h => edgeCycles_eq_nil (.inr (.inl h)),
    fun s e _ _ h => edgeCycles_eq_nil (.inr (.inr ⟨e, h⟩)),
    fun s i hcpu hpc hok => edgeCycles_of_ok hcpu hpc hok,
    portCycles_cls,
    fun x s => ⟨portCycles_skp x s, portCycles_sknp x s⟩,
    fun x y n s h => ⟨spritePixels s s.i.toNat (s.drawCol x) (s.drawRow y) n.toNat,
      spritePixels_pairwise s _ _ _ _, fun c r => mem_spritePixels, portCycles_drw_inside x y n s h⟩,
    fun x y n s hn h => drwCycles_past x y n s ?_ h,
    fun i s => portCycles_eq_nil s⟩
  have : n.toNat ≠ 0 := fun h0 => hn (BitVec.eq_of_toNat_eq h0)
  omega

end Sys2Proof.Machine
end

section
/-! SUPPORT. What an instruction can do to the state at most, said once for all 35 (`Effect`), and from it the writers of each register
(O51 to O54) and the invariant of reachable states (O38, O46, O47). -/

namespace Sys2Proof.Machine

/-! ### The effects of the instructions -/

/-- Register `r` is one that instruction `i` may change (R20, R21). -/
abbrev MayWrite (i : Instr) (r : RegIdx) : Prop := namesDest r i = true ∨ (r = VF ∧ writesFlag i = true)

/-- The program counters an instruction goes on at without touching the stack: a jump target or sum of R84, or past a skip (R85). -/
abbrev GoesTo (s : State) (w : Word) : Prop := w.toNat ≤ 0x10FE ∨ w = s.pc ∨ w = s.pc + 2#16

/-- The effects of the instructions, one constructor for each set of fields that changes together. `exec_effect` ties it to `exec`. -/
inductive Effect (s : State) : Instr → State → Prop
  /-- a fault is recorded and nothing else happens (R198) -/
  | fault {i : Instr} {c : Cause} {info : Word} (hc : c ≠ .none) : Effect s i (s.raiseHere c info)
  /-- jumps and skips (R80, R81, R84 to R88, R160, R161) -/
  | goto {i : Instr} {w : Word} (hw : GoesTo s w) : Effect s i { s with pc := w }
  /-- CALL with room on the stack (R82) -/
  | call (nnn : Addr12) (h : s.sp.val < 16) : Effect s (.call nnn) ((s.push s.pc h).setPc (zext16 nnn))
  /-- RET with an entry on the stack (R83) -/
  | ret (h : 0 < s.sp.val) : Effect s .ret (s.popPc h)
  /-- loads of registers, arithmetic and logic (R20) -/
  | regs {i : Instr} {v : Vector Byte 16} (hv : ∀ r, ({ s with v := v } : State).reg r ≠ s.reg r → MayWrite i r) :
      Effect s i { s with v := v }
  /-- the writers of `I` (R23) -/
  | index {i : Instr} {w : Word} (hi : (∃ nnn, i = .ldI nnn) ∨ (∃ x, i = .addI x) ∨ ∃ x, i = .ldF x) : Effect s i { s with i := w }
  /-- LD DT, Vx (R142) -/
  | delay (x : RegIdx) : Effect s (.ldDtVx x) (s.setDt (s.reg x))
  /-- LD ST, Vx (R143) -/
  | sound (x : RegIdx) : Effect s (.ldStVx x) (s.setSt (s.reg x))
  /-- LD Vx, K (R162) -/
  | wait (x : RegIdx) : Effect s (.ldVxK x) (s.beginWait x)
  /-- LD B and LD [I], inside memory (R123, R124) -/
  | store {i : Instr} {m : Memory} (hm : s.mem.wf → m.wf) : Effect s i { s with mem := m }
  /-- CLS (R150) -/
  | clear : Effect s .cls s.dispClear
  /-- DRW, its sprite inside memory (R151) -/
  | draw (x y : RegIdx) (n : Nibble) {v : Vector Byte 16} {d : Display}
      (hv : ∀ r, r ≠ VF → ({ s with v := v } : State).reg r = s.reg r) (hd : s.display.wf s.params → d.wf s.params) :
      Effect s (.drw x y n) { s with v := v, display := d }

theorem zext16_goesTo (s : State) (nnn : Addr12) : GoesTo s (zext16 nnn) := by
  refine .inl ?_
  have := nnn.isLt
  rw [BitVec.toNat_setWidth]
  omega

/-- The largest target: `0xFFF + 0xFF = 0x10FE` (R34 (b), R84). -/
theorem jumpV0Target_goesTo (s : State) (nnn : Addr12) : GoesTo s (s.jumpV0Target nnn) := by
  refine .inl ?_
  have := nnn.isLt
  have := (s.reg 0#4).isLt
  rw [State.jumpV0Target, BitVec.toNat_add, BitVec.toNat_setWidth, BitVec.toNat_setWidth]
  omega

theorem Effect.setReg {i : Instr} {x : RegIdx} (s : State) (b : Byte) (h : namesDest x i = true) : Effect s i (s.setReg x b) :=
  .regs fun r hr => by
    by_cases hrx : r = x
    · exact .inl (hrx ▸ h)
    · exact absurd ((reg_setReg s x r b).trans (if_neg hrx)) hr

theorem Effect.writeWithFlag {i : Instr} {x : RegIdx} (s : State) (b : Byte) (f : Bool) (h : namesDest x i = true)
    (hf : writesFlag i = true) : Effect s i (s.writeWithFlag x b f) :=
  .regs fun r hr => by
    by_cases hrf : r = VF
    · exact .inr ⟨hrf, hf⟩
    by_cases hrx : r = x
    · exact .inl (hrx ▸ h)
    · exact absurd ((reg_writeWithFlag s x r b f).trans ((if_neg hrf).trans (if_neg hrx))) hr

theorem Effect.skipIf {i : Instr} (s : State) (b : Bool) : Effect s i (s.skipIf b) := by
  rw [skipIf_frame]
  cases b
  · exact .goto (.inr (.inl rfl))
  · exact .goto (.inr (.inr rfl))

theorem Effect.loadBlock (s : State) (x : RegIdx) : Effect s (.loadRegs x) (s.loadBlock s.i.toNat (blockLen x)) := by
  rw [loadBlock_frame]
  refine .regs fun r hr => .inl ?_
  rw [← loadBlock_frame, reg_loadBlock s _ (m := blockLen x) x.isLt] at hr
  exact decide_eq_true (Nat.le_of_lt_succ (ite_ne_right_iff.1 hr).1)

theorem Effect.storeBlock {i : Instr} {s : State} {a m : Nat} (ha : a + m ≤ memSize) : Effect s i (s.storeBlock a m) := by
  rw [storeBlock_frame]
  exact .store fun h => storeBlock_wf s h ha

theorem Effect.drawRows (s : State) (x y : RegIdx) (n : Nibble) (a c0 r0 m : Nat) :
    Effect s (.drw x y n) ((s.setReg VF 0x00#8).drawRows a c0 r0 m) := by
  rw [drawRows_frame]
  refine .draw x y n (fun r hr => ?_) fun h => drawRows_wf (s.setReg VF 0x00#8) a c0 r0 h
  calc ((s.setReg VF 0x00#8).drawRows a c0 r0 m).reg r
      = (s.setReg VF 0x00#8).reg r := (reg_drawRows _ a c0 r0 m r).trans (if_neg fun h => hr h.1)
    _ = s.reg r := (reg_setReg s VF r _).trans (if_neg hr)

/-- Every instruction executes to a next state and has one of the effects. -/
theorem exec_effect (i : Instr) (s : State) : ∃ t, exec i s = .next t ∧ Effect s i t := by
  cases i with
  | cls => exact ⟨_, rfl, .clear⟩
  | ret =>
    by_cases h : 0 < s.sp.val
    · exact ⟨_, exec_ret_of_pos s h, .ret h⟩
    · exact ⟨_, exec_ret_empty s h, .fault nofun⟩
  | sys nnn | jp nnn =>
    exact ⟨_, rfl, .goto (zext16_goesTo s nnn)⟩
  | call nnn =>
    by_cases h : s.sp.val < 16
    · exact ⟨_, exec_call_of_lt nnn s h, .call nnn h⟩
    · exact ⟨_, exec_call_full nnn s h, .fault nofun⟩
  | seImm | sneImm | seReg | sneReg | skp | sknp =>
    exact ⟨_, rfl, .skipIf s _⟩
  | jpV0 nnn => exact ⟨_, rfl, .goto (jumpV0Target_goesTo s nnn)⟩
  | ldImm x | addImm x | ldReg x | orReg x | andReg x | xorReg x | rnd x | ldVxDt x =>
    exact ⟨_, rfl, .setReg s _ (beq_self_eq_true x)⟩
  | addReg x | subReg x | shr x | subnReg x | shl x =>
    exact ⟨_, rfl, .writeWithFlag s _ _ (beq_self_eq_true x) rfl⟩
  | ldI nnn => exact ⟨_, rfl, .index (.inl ⟨nnn, rfl⟩)⟩
  | addI x => exact ⟨_, rfl, .index (.inr (.inl ⟨x, rfl⟩))⟩
  | ldF x => exact ⟨_, rfl, .index (.inr (.inr ⟨x, rfl⟩))⟩
  | ldDtVx x => exact ⟨_, rfl, .delay x⟩
  | ldStVx x => exact ⟨_, rfl, .sound x⟩
  | ldVxK x => exact ⟨_, rfl, .wait x⟩
  | ldB x =>
    obtain ⟨ha, h⟩ | ⟨-, h⟩ := exec_ldB_cases x s
    · exact ⟨_, h, .store fun hm => writeDigits_wf s _ hm ha⟩
    · exact ⟨_, h, .fault nofun⟩
  | storeRegs x =>
    obtain ⟨ha, h⟩ | ⟨-, h⟩ := exec_storeRegs_cases x s
    · exact ⟨_, h, .storeBlock ha⟩
    · exact ⟨_, h, .fault nofun⟩
  | loadRegs x =>
    obtain ⟨-, h⟩ | ⟨-, h⟩ := exec_loadRegs_cases x s
    · exact ⟨_, h, .loadBlock s x⟩
    · exact ⟨_, h, .fault nofun⟩
  | drw x y n =>
    obtain ⟨-, h⟩ | ⟨-, h⟩ := exec_drw_cases x y n s
    · exact ⟨_, h, .drawRows s x y n _ _ _ _⟩
    · exact ⟨_, h, .fault nofun⟩

theorem effect_of_exec {i : Instr} {s t : State} (h : exec i s = .next t) : Effect s i t := by
  obtain ⟨u, hu, he⟩ := exec_effect i s
  obtain rfl : t = u := Host.Outcome.next.inj (h.symm.trans hu)
  exact he

/-! ### The invariant (R34) -/

@[simp] theorem reset_reg (r : RegIdx) : State.reset.reg r = 0x00#8 := Vector.getElem_replicate ..

@[simp] theorem reset_slot (k : Fin 16) : State.reset.slot k = 0x0000#16 := Vector.getElem_replicate ..

theorem inv_reset : Inv State.reset where
  mem := reset_mem_wf
  display := Display.ofLit_wf _ _
  pc := by decide
  slots k := .inl (reset_slot k)
  held k hk := absurd hk (Nat.not_lt_zero _)
  record _ := ⟨rfl, rfl⟩
  noWait h := absurd rfl h

theorem Inv.resetBlock {s : State} (h : Inv s) : Inv s.resetBlock := { inv_reset with display := h.display }

theorem Inv.endCycle {s : State} (h : Inv s) (p : Pins) : Inv (s.endCycle p) := by
  rw [endCycle_frame]
  exact { h with mem := loadPort_wf s p h.mem }

theorem Inv.setPc {s : State} (h : Inv s) {w : Word} (hw : w.toNat ≤ 0x10FE) : Inv (s.setPc w) := { h with pc := hw }

/-- A fault may be recorded where no key wait is pending. -/
theorem Inv.raise {s : State} (h : Inv s) (hk : s.waitkey = false) {c : Cause} (hc : c ≠ .none) (info epc : Word) :
    Inv (s.raise c info epc) := { h with record := fun h0 => absurd h0 hc, noWait := fun _ => hk }

theorem Inv.endWait {s : State} (h : Inv s) : Inv s.endWait := { h with noWait := fun _ => rfl }

/-- A return address pushed by a CALL is the address behind it: not 0, and at most 4096 (R34 (c), R82). -/
theorem Inv.push {s : State} (h : Inv s) (hsp : s.sp.val < 16) {w : Word} (hlo : 2 ≤ w.toNat) (hhi : w.toNat ≤ memSize) :
    Inv (s.push w hsp) where
  mem := h.mem
  display := h.display
  pc := h.pc
  slots k := by
    rw [slot_push]
    split
    · exact .inr ⟨hlo, hhi⟩
    · exact h.slots k
  held k hk := by
    rw [slot_push]
    split
    · rintro rfl
      exact absurd hlo (by decide)
    · exact h.held k (by have := Nat.lt_succ_iff.1 hk; omega)
  record := h.record
  noWait := h.noWait

/-- A RET goes to an address that a CALL pushed. -/
theorem Inv.popPc {s : State} (h : Inv s) (hsp : 0 < s.sp.val) : Inv (s.popPc hsp) where
  mem := h.mem
  display := h.display
  pc := by
    have hlt : s.sp.val - 1 < 16 := by have := s.sp.isLt; omega
    rw [popPc_pc_eq s hsp hlt]
    obtain h0 | ⟨-, hle⟩ := h.slots ⟨s.sp.val - 1, hlt⟩
    · rw [h0]
      decide
    · exact hle.trans (by decide)
  slots := h.slots
  held k hk := h.held k (Nat.lt_of_lt_of_le hk (Nat.sub_le _ _))
  record := h.record
  noWait := h.noWait

/-- The instruction executed by a `CpuStep`: no fault is recorded, no wait is pending, and the PC is that of a fetch, advanced (R170). -/
theorem Effect.inv {i : Instr} {s t : State} (he : Effect s i t) (h : Inv s) (hf : s.fcause = .none) (hk : s.waitkey = false)
    (hlo : 2 ≤ s.pc.toNat) (hhi : s.pc.toNat ≤ memSize) : Inv t := by
  cases he with
  | fault hc => exact h.raise hk hc _ _
  | goto hw =>
    refine h.setPc ?_
    obtain hle | rfl | rfl := hw
    · exact hle
    · exact h.pc
    · rw [BitVec.toNat_add]
      exact (Nat.mod_le _ _).trans ((Nat.add_le_add_right hhi 2).trans (by decide))
  | call nnn hsp =>
    refine (h.push hsp hlo hhi).setPc ?_
    rw [BitVec.toNat_setWidth]
    have := nnn.isLt
    omega
  | ret hsp => exact h.popPc hsp
  | wait x => exact { h with noWait := fun hne => absurd hf hne }
  | store hm => exact { h with mem := hm h.mem }
  | clear => exact { h with display := Display.nil_wf _ }
  | draw x y n hv hd => exact { h with display := hd h.display }
  | regs | index | delay | sound => exact { h with }

theorem cpuStep_inv {s t : State} (h : Inv s) (hf : s.fcause = .none) (hk : s.waitkey = false) (ht : cpuStep s = .next t) : Inv t := by
  have hadv : s.pc.toNat ≤ lastFetch → s.advancePc.pc.toNat = s.pc.toNat + 2 := fun hpc => by
    rw [advancePc_pc, BitVec.toNat_add]
    exact Nat.mod_eq_of_lt ((Nat.add_le_add_right hpc 2).trans_lt (by decide))
  have hinv : s.pc.toNat ≤ lastFetch → Inv s.advancePc := fun hpc =>
    h.setPc ((hadv hpc).le.trans ((Nat.add_le_add_right hpc 2).trans (by decide)))
  obtain ⟨-, hs⟩ | ⟨e, hpc, -, hs⟩ | ⟨i, hpc, -, hs⟩ := cpuStep_cases s
  · obtain rfl := Host.Outcome.next.inj (hs.symm.trans ht)
    exact h.raise hk (by decide) _ _
  · obtain rfl := Host.Outcome.next.inj (hs.symm.trans ht)
    exact (hinv hpc).raise hk (by decide) _ _
  · refine (effect_of_exec (hs.symm.trans ht)).inv (hinv hpc) hf hk ?_ ?_
    · exact (hadv hpc).ge.trans' (Nat.le_add_left 2 _)
    · exact (hadv hpc).le.trans (Nat.add_le_add_right hpc 2)

theorem mapNext_eq_next {f : State → State} {r : Result} {t : State} (h : mapNext f r = .next t) : ∃ u, r = .next u ∧ f u = t := by
  cases r with
  | next u => exact ⟨u, rfl, Host.Outcome.next.inj h⟩
  | fault | refused => cases h

theorem Inv.setReg {s : State} (h : Inv s) (r : RegIdx) (b : Byte) : Inv (s.setReg r b) := { h with }

theorem Inv.timerStep {s : State} (h : Inv s) : Inv s.timerStep := { h with }

/-- Settles O46: each of the six kinds of edge keeps the invariant, an instruction tick by the effect of its instruction. -/
theorem everyStepKeepsTheInvariant : Obligations.EveryStepKeepsTheInvariant := by
  unfold Obligations.EveryStepKeepsTheInvariant
  intro s t h ht
  have eq_of_step : ∀ {u}, step s = .next u → u = t := fun hs => Host.Outcome.next.inj (hs.symm.trans ht)
  obtain ⟨-, hs⟩ | ⟨-, hs⟩ | ⟨-, hs⟩ | ⟨-, hs⟩ | ⟨⟨-, -, -, -, hf, hk⟩, hs⟩ | ⟨-, -, -, -, -, hs⟩ := step_cases s
  · obtain rfl := eq_of_step hs
    exact { h.resetBlock with }
  · obtain rfl := eq_of_step hs
    exact (h.setReg s.waitreg 0x01#8).endWait.endCycle _
  · obtain rfl := eq_of_step hs
    exact (h.endWait.raise rfl (by decide) _ _).endCycle _
  · obtain rfl := eq_of_step hs
    exact (Inv.timerStep (s := { s with tpend := false }) { h with }).endCycle _
  · obtain ⟨u, hu, rfl⟩ := mapNext_eq_next (hs.symm.trans ht)
    exact (cpuStep_inv (s := { s with ipend := false }) { h with } hf hk hu).endCycle _
  · obtain rfl := eq_of_step hs
    exact h.endCycle _

/-! ### The state after reset (R33) -/

/-- Settles O47: memory is empty, the lit pixels stand in canonical form, and every slot is 0. -/
theorem stateAfterResetHasTheInvariant : Obligations.StateAfterResetHasTheInvariant := inv_reset

/-- Settles O38: the registers and slots by the reading of a constant vector, every other value as written. -/
theorem stateAfterReset : Obligations.StateAfterReset :=
  ⟨reset_reg, reset_slot, fun _ => rfl, rfl, rfl, rfl, rfl, rfl, rfl, rfl, rfl, rfl, rfl, rfl, rfl, rfl⟩

/-! ### The writers of the stack, the registers and the rest of the CPU state -/

/-- Settles O51: of the effects only those of CALL and RET touch `sp`, and only that of CALL touches `stack`. -/
theorem onlyCallAndReturnTouchTheStack : Obligations.OnlyCallAndReturnTouchTheStack := by
  unfold Obligations.OnlyCallAndReturnTouchTheStack
  intro i s t h
  cases effect_of_exec h with
  | call nnn => exact ⟨fun _ => .inr ⟨nnn, rfl⟩, fun _ => ⟨nnn, rfl⟩⟩
  | ret => exact ⟨fun _ => .inl rfl, absurd rfl⟩
  | _ => exact ⟨absurd rfl, absurd rfl⟩

/-- Settles O52: registers change only by the effects `regs` and `draw`, and a draw writes no register but VF. -/
theorem onlyNamedRegistersChange : Obligations.OnlyNamedRegistersChange := by
  unfold Obligations.OnlyNamedRegistersChange
  intro i s t r h hr
  cases effect_of_exec h with
  | regs hv => exact hv r hr
  | draw x y n hv => exact .inr ⟨not_imp_comm.1 (hv r) hr, rfl⟩
  | _ => exact absurd rfl hr

theorem flagByte_zero_or_one (f : Bool) : flagByte f = 0x00#8 ∨ flagByte f = 0x01#8 := by
  cases f
  · exact .inl rfl
  · exact .inr rfl

theorem writeWithFlag_VF (s : State) (x : RegIdx) (b : Byte) (f : Bool) :
    (s.writeWithFlag x b f).reg VF = 0x00#8 ∨ (s.writeWithFlag x b f).reg VF = 0x01#8 := by
  rw [reg_writeWithFlag, if_pos rfl]
  exact flagByte_zero_or_one f

theorem drawRows_VF (s : State) (a c0 r0 m : Nat) :
    ((s.setReg VF 0x00#8).drawRows a c0 r0 m).reg VF = 0x00#8 ∨ ((s.setReg VF 0x00#8).drawRows a c0 r0 m).reg VF = 0x01#8 := by
  rw [reg_drawRows, reg_setReg, if_pos rfl]
  exact (ite_eq_or_eq _ _ _).symm

/-- The six flag-setting instructions: five of family 8, and DRW, which raises a fault if its sprite is not inside memory. -/
theorem VF_of_writesFlag {i : Instr} {s t : State} (h : exec i s = .next t) (hi : writesFlag i = true) (ht : t.fcause = .none) :
    t.reg VF = 0x00#8 ∨ t.reg VF = 0x01#8 := by
  cases i
  case addReg | subReg | subnReg | shr | shl =>
    obtain rfl := Host.Outcome.next.inj h
    exact writeWithFlag_VF s _ _ _
  case drw x y n =>
    obtain ⟨-, hs⟩ | ⟨-, hs⟩ := exec_drw_cases x y n s
    · obtain rfl := Host.Outcome.next.inj (hs.symm.trans h)
      exact drawRows_VF s _ _ _ _
    · obtain rfl := Host.Outcome.next.inj (hs.symm.trans h)
      exact nomatch ht
  all_goals exact nomatch hi

/-- Settles O53: that the other instructions leave VF is O52 at `r = VF`. -/
theorem flagRegisterHoldsZeroOrOne : Obligations.FlagRegisterHoldsZeroOrOne := by
  unfold Obligations.FlagRegisterHoldsZeroOrOne
  refine fun i s t h _ => ⟨VF_of_writesFlag h, fun hf hd => ?_⟩
  by_contra hne
  obtain hd' | ⟨-, hf'⟩ := onlyNamedRegistersChange i s t VF h hne
  · exact Bool.false_ne_true (hd.symm.trans hd')
  · exact Bool.false_ne_true (hf.symm.trans hf')

/-- Settles O54: the effects that touch one of these fields, each with the instructions it belongs to. -/
theorem specialRegistersHaveTheirWriters : Obligations.SpecialRegistersHaveTheirWriters := by
  unfold Obligations.SpecialRegistersHaveTheirWriters
  intro i s t h
  have hsame : s.waitkey ≠ s.waitkey ∨ s.waitreg ≠ s.waitreg → ∃ x, i = .ldVxK x := Or.rec (absurd rfl) (absurd rfl)
  cases effect_of_exec h with
  | index hi => exact ⟨fun _ => hi, absurd rfl, absurd rfl, hsame, absurd rfl⟩
  | delay x => exact ⟨absurd rfl, fun _ => ⟨x, rfl⟩, absurd rfl, hsame, absurd rfl⟩
  | sound x => exact ⟨absurd rfl, absurd rfl, fun _ => ⟨x, rfl⟩, hsame, absurd rfl⟩
  | wait x => exact ⟨absurd rfl, absurd rfl, absurd rfl, fun _ => ⟨x, rfl⟩, absurd rfl⟩
  | clear => exact ⟨absurd rfl, absurd rfl, absurd rfl, hsame, fun _ => .inl rfl⟩
  | draw x y n => exact ⟨absurd rfl, absurd rfl, absurd rfl, hsame, fun _ => .inr ⟨x, y, n, rfl⟩⟩
  | _ => exact ⟨absurd rfl, absurd rfl, absurd rfl, hsame, absurd rfl⟩

end Sys2Proof.Machine
end

section
/-! SUPPORT. O55: an instruction carries the inputs and the edge count along (`exec_withInputs`), and leaves the rest of the hidden state
alone (`exec_cases`). -/

namespace Sys2Proof.Machine

/-! ### Each operation commutes with a change of the inputs and the edge count -/

/-- The state with other inputs to come and another edge count (Log 1). -/
def State.withInputs (s : State) (ps : List Pins) (c : Nat) : State := { s with inputs := ps, cycle := c }

section
variable (s : State) (ps : List Pins) (c : Nat)

theorem skipIf_withInputs (b : Bool) : (s.withInputs ps c).skipIf b = (s.skipIf b).withInputs ps c := by cases b <;> rfl

theorem composite_withInputs (b : Bool) (col row : Nat) :
    (s.withInputs ps c).composite b col row = (s.composite b col row).withInputs ps c := by
  have hp : (s.withInputs ps c).pixRead col row = s.pixRead col row := rfl
  unfold State.composite
  rw [hp]
  split
  · split <;> rfl
  · rfl

theorem drawPixels_withInputs (b : Byte) (c0 row m : Nat) :
    (s.withInputs ps c).drawPixels b c0 row m = (s.drawPixels b c0 row m).withInputs ps c := by
  induction m with
  | zero => rfl
  | succ j ih =>
    simp only [State.drawPixels, ih, composite_withInputs]
    exact (apply_ite (State.withInputs · ps c) ..).symm

theorem drawRows_withInputs (a c0 r0 m : Nat) :
    (s.withInputs ps c).drawRows a c0 r0 m = (s.drawRows a c0 r0 m).withInputs ps c := by
  induction m with
  | zero => rfl
  | succ r ih =>
    simp only [State.drawRows, ih, drawPixels_withInputs]
    exact (apply_ite (State.withInputs · ps c) ..).symm

theorem storeBlock_withInputs (a m : Nat) : (s.withInputs ps c).storeBlock a m = (s.storeBlock a m).withInputs ps c := by
  induction m with
  | zero => rfl
  | succ k ih =>
    simp only [State.storeBlock, ih]
    rfl

theorem loadBlock_withInputs (a m : Nat) : (s.withInputs ps c).loadBlock a m = (s.loadBlock a m).withInputs ps c := by
  induction m with
  | zero => rfl
  | succ k ih =>
    simp only [State.loadBlock, ih]
    rfl

theorem withRange_withInputs (a len : Nat) {body body' : State → State}
    (h : body' (s.withInputs ps c) = (body s).withInputs ps c) :
    withRange a len (s.withInputs ps c) body' = mapNext (State.withInputs · ps c) (withRange a len s body) := by
  unfold withRange
  cases checkRange a len with
  | some info => rfl
  | none => exact congrArg Host.Outcome.next h

end

/-! ### Every instruction commutes with it -/

/-- The instructions that read a port other than `px_q` (R140, R160, R161). -/
def readsPins : Instr → Bool
  | .rnd _ _ => true
  | .skp _ => true
  | .sknp _ => true
  | _ => false

theorem rand8_withInputs {s : State} {ps : List Pins} {c : Nat} (h : (s.withInputs ps c).pins = s.pins) :
    (s.withInputs ps c).rand8 = s.rand8 := congrArg Pins.rnd h

theorem keyDown_withInputs {s : State} {ps : List Pins} {c : Nat} (h : (s.withInputs ps c).pins = s.pins) (k : Byte) :
    (s.withInputs ps c).keyDown k = s.keyDown k := congrArg (fun p => p.keys.getLsbD k.toNat) h

/-- With other inputs to come and another edge count an instruction does the same, if the inputs at this edge are the same or it reads none. -/
theorem exec_withInputs (i : Instr) (s : State) (ps : List Pins) (c : Nat) (h : readsPins i = true → (s.withInputs ps c).pins = s.pins) :
    exec i (s.withInputs ps c) = mapNext (State.withInputs · ps c) (exec i s) := by
  cases i
  case seImm | sneImm | seReg | sneReg => exact congrArg Host.Outcome.next (skipIf_withInputs s ps c _)
  case skp x =>
    refine congrArg Host.Outcome.next ((skipIf_withInputs s ps c _).trans ?_)
    exact congrArg (fun b => (s.skipIf b).withInputs ps c) (keyDown_withInputs (h rfl) (s.reg x))
  case sknp x =>
    refine congrArg Host.Outcome.next ((skipIf_withInputs s ps c _).trans ?_)
    exact congrArg (fun b => (s.skipIf !b).withInputs ps c) (keyDown_withInputs (h rfl) (s.reg x))
  case rnd x kk => exact congrArg (fun b => Host.Outcome.next ((s.setReg x (b &&& kk)).withInputs ps c)) (rand8_withInputs (h rfl))
  case call nnn =>
    by_cases hsp : s.sp.val < 16
    · rw [exec_call_of_lt nnn s hsp, exec_call_of_lt nnn (s.withInputs ps c) hsp]
      rfl
    · rw [exec_call_full nnn s hsp, exec_call_full nnn (s.withInputs ps c) hsp]
      rfl
  case ret =>
    by_cases hsp : 0 < s.sp.val
    · rw [exec_ret_of_pos s hsp, exec_ret_of_pos (s.withInputs ps c) hsp]
      rfl
    · rw [exec_ret_empty s hsp, exec_ret_empty (s.withInputs ps c) hsp]
      rfl
  case ldB x =>
    simp only [exec, execLdB]
    exact withRange_withInputs s ps c _ _ rfl
  case storeRegs x =>
    simp only [exec, execStoreRegs]
    exact withRange_withInputs s ps c _ _ (storeBlock_withInputs s ps c _ _)
  case loadRegs x =>
    simp only [exec, execLoadRegs]
    exact withRange_withInputs s ps c _ _ (loadBlock_withInputs s ps c _ _)
  case drw x y n =>
    simp only [exec, execDrw]
    exact withRange_withInputs s ps c _ _ (drawRows_withInputs (s.setReg VF 0x00#8) ps c _ _ _ _)
  all_goals rfl

theorem exec_sameOutside {i : Instr} {s t : State} (h : exec i s = .next t) : SameOutside s t := by
  obtain ⟨c, info, -, hs⟩ | ⟨u, hs, -, -, -, hout⟩ := exec_cases i s
  · obtain rfl := Host.Outcome.next.inj (hs.symm.trans h)
    exact ⟨rfl, rfl, rfl, rfl, rfl, rfl⟩
  · obtain rfl := Host.Outcome.next.inj (hs.symm.trans h)
    exact hout

/-- Settles O55: what the edge drives is carried along by every instruction, and read by three only through `pins`. -/
theorem hiddenStateIsOutOfReach : Obligations.HiddenStateIsOutOfReach := by
  unfold Obligations.HiddenStateIsOutOfReach
  intro i s t h
  obtain ⟨hbuz, hip, htp, hpar, hin, hcyc⟩ := exec_sameOutside h
  refine ⟨hbuz, hip, htp, hpar, hin, hcyc, fun ps c hp => ?_⟩
  calc exec i (s.withInputs ps c)
      = mapNext (State.withInputs · ps c) (exec i s) := exec_withInputs i s ps c fun _ => hp
    _ = .next (t.withInputs ps c) := by rw [h, mapNext_next]

end Sys2Proof.Machine
end

section
/-! SUPPORT. Memory (`20_memory.md`): which bytes an instruction writes (O50), that a store at the PC is the next word fetched (O59), and
that the load port is dead while `run = 1` and writes one byte while `run = 0` (O39). -/

namespace Sys2Proof.Machine

/-! ### The bytes an instruction writes (R40, R41) -/

theorem exec_mem_eq {i : Instr} {s t : State} (h : exec i s = .next t) (hB : ∀ x, i ≠ .ldB x) (hS : ∀ x, i ≠ .storeRegs x) :
    t.mem = s.mem := by
  have eq_of_exec : ∀ {u}, exec i s = .next u → u = t := fun hu => Host.Outcome.next.inj (hu.symm.trans h)
  cases i with
  | ldB x => exact absurd rfl (hB x)
  | storeRegs x => exact absurd rfl (hS x)
  | ret =>
    by_cases hsp : 0 < s.sp.val
    · obtain rfl := eq_of_exec (exec_ret_of_pos s hsp)
      rfl
    · obtain rfl := eq_of_exec (exec_ret_empty s hsp)
      rfl
  | call nnn =>
    by_cases hsp : s.sp.val < 16
    · obtain rfl := eq_of_exec (exec_call_of_lt nnn s hsp)
      rfl
    · obtain rfl := eq_of_exec (exec_call_full nnn s hsp)
      rfl
  | loadRegs x =>
    obtain ⟨-, hs⟩ | ⟨-, hs⟩ := exec_loadRegs_cases x s
    · obtain rfl := eq_of_exec hs
      rw [loadBlock_frame]
    · obtain rfl := eq_of_exec hs
      rfl
  | drw x y n =>
    obtain ⟨-, hs⟩ | ⟨-, hs⟩ := exec_drw_cases x y n s
    · obtain rfl := eq_of_exec hs
      rw [drawRows_frame]
      rfl
    · obtain rfl := eq_of_exec hs
      rfl
  | seImm | sneImm | seReg | sneReg | skp | sknp =>
    obtain rfl := eq_of_exec rfl
    rw [skipIf_frame]
  | _ =>
    obtain rfl := eq_of_exec rfl
    rfl

theorem range_of_ldB_writes {x : RegIdx} {s t : State} {a : Nat} (h : exec (.ldB x) s = .next t) (ha : t.readByte a ≠ s.readByte a) :
    s.i.toNat ≤ a ∧ a < s.i.toNat + 3 ∧ s.i.toNat + 3 ≤ memSize := by
  obtain ⟨hin, hs⟩ | ⟨-, hs⟩ := exec_ldB_cases x s
  · obtain rfl := Host.Outcome.next.inj (hs.symm.trans h)
    have hmem : a = s.i.toNat ∨ a = s.i.toNat + 1 ∨ a = s.i.toNat + 2 := by
      by_contra hne
      simp only [not_or] at hne
      obtain ⟨h0, h1, h2⟩ := hne
      exact ha (by rw [readByte_writeDigits, if_neg h0, if_neg h1, if_neg h2])
    exact ⟨by omega, by omega, hin⟩
  · obtain rfl := Host.Outcome.next.inj (hs.symm.trans h)
    exact absurd rfl ha

theorem range_of_storeRegs_writes {x : RegIdx} {s t : State} {a : Nat} (h : exec (.storeRegs x) s = .next t)
    (ha : t.readByte a ≠ s.readByte a) :
    s.i.toNat ≤ a ∧ a < s.i.toNat + blockLen x ∧ s.i.toNat + blockLen x ≤ memSize := by
  obtain ⟨hin, hs⟩ | ⟨-, hs⟩ := exec_storeRegs_cases x s
  · obtain rfl := Host.Outcome.next.inj (hs.symm.trans h)
    rw [readByte_storeBlock] at ha
    obtain ⟨hlo, hhi⟩ := (ite_ne_right_iff.1 ha).1
    exact ⟨hlo, hhi, hin⟩
  · obtain rfl := Host.Outcome.next.inj (hs.symm.trans h)
    exact absurd rfl ha

/-- Settles O50: the two stores write inside their checked ranges, every other instruction keeps memory whole. -/
theorem onlyStoresWriteMemory : Obligations.OnlyStoresWriteMemory := by
  unfold Obligations.OnlyStoresWriteMemory
  intro i s t h a ha
  by_cases hB : ∃ x, i = .ldB x
  · obtain ⟨x, rfl⟩ := hB
    obtain ⟨hlo, hhi, hin⟩ := range_of_ldB_writes h ha
    exact .inl ⟨x, rfl, hlo, hhi, Nat.le_of_lt_succ (hhi.trans_le hin)⟩
  by_cases hS : ∃ x, i = .storeRegs x
  · obtain ⟨x, rfl⟩ := hS
    obtain ⟨hlo, hhi, hin⟩ := range_of_storeRegs_writes h ha
    exact .inr ⟨x, rfl, hlo, Nat.le_of_lt_succ hhi, Nat.le_of_lt_succ (hhi.trans_le hin)⟩
  have hmem : t.mem = s.mem := exec_mem_eq h (not_exists.1 hB) (not_exists.1 hS)
  exact absurd (congrArg (Memory.read · a) hmem) ha

/-! ### A store at the PC (R50) -/

/-- Settles O59: the two bytes of the word at the PC are the first two of the stored block. -/
theorem storesReachTheNextFetch : Obligations.StoresReachTheNextFetch := by
  unfold Obligations.StoresReachTheNextFetch
  intro x s hx hi hin
  have hlen : 2 ≤ blockLen x := Nat.succ_le_succ hx
  have hpc : (s.storeBlock s.i.toNat (blockLen x)).pc = s.pc := by rw [storeBlock_frame]
  refine ⟨_, exec_storeRegs_inside x s (Nat.succ_le_succ hin), hpc, ?_⟩
  have hhi : (s.storeBlock s.i.toNat (blockLen x)).readByte s.pc.toNat = s.reg 0#4 := by
    rw [readByte_storeBlock, hi, if_pos (by omega), Nat.sub_self]
  have hlo : (s.storeBlock s.i.toNat (blockLen x)).readByte (s.pc.toNat + 1) = s.reg 1#4 := by
    rw [readByte_storeBlock, hi, if_pos (by omega), Nat.add_sub_cancel_left]
  rw [State.fetchWord, hpc, hhi, hlo, wordOfBytes]

/-! ### The load port while `run = 0` (R51, R173) -/

/-- While `run = 0` the step of an edge is that of a key strobe or none, and neither touches memory: the load port alone does (Log 5). -/
theorem step_paused_readByte {s : State} (hrst : s.pins.rst = false) (hrun : s.pins.run = false) : ∃ t, step s = .next t ∧
    ∀ a, t.readByte a = if s.pins.ldWe = true ∧ a = s.pins.ldAddr.toNat then s.pins.ldData else s.readByte a := by
  have hload : ∀ (u : State) (a : Nat), u.readByte a = s.readByte a → (u.endCycle s.pins).readByte a =
      if s.pins.ldWe = true ∧ a = s.pins.ldAddr.toNat then s.pins.ldData else s.readByte a := fun u a hu => by
    simp only [endCycle_readByte, hrun, true_and, hu]
  obtain ⟨h, -⟩ | ⟨-, hs⟩ | ⟨-, hs⟩ | ⟨⟨-, -, -, h, -⟩, -⟩ | ⟨⟨-, h, -⟩, -⟩ | ⟨-, -, -, -, -, hs⟩ := step_cases s
  · exact nomatch h.symm.trans hrst
  · exact ⟨_, hs, fun a => hload _ a rfl⟩
  · exact ⟨_, hs, fun a => hload _ a rfl⟩
  · exact nomatch h.symm.trans hrun
  · exact nomatch h.symm.trans hrun
  · exact ⟨_, hs, fun a => hload _ a rfl⟩

/-! ### The load port while `run = 1` (R51)

The turn of an edge reads the inputs, but never the load port; so a turn under other levels on it is the same turn, with those inputs
carried along (`State.withInputs`), and the end of the edge uses them up. -/

/-- The inputs of an edge with nothing on the load port. -/
def offLoadPort (p : Pins) : Pins := { p with ldWe := false, ldAddr := 0#12, ldData := 0#8 }

theorem mapNext_mapNext (f g : State → State) (r : Result) : mapNext f (mapNext g r) = mapNext (fun u => f (g u)) r := by
  cases r <;> rfl

theorem keyEventStep_withInputs (s : State) (ps : List Pins) (c : Nat) :
    (s.withInputs ps c).keyEventStep = s.keyEventStep.withInputs ps c := by
  unfold State.keyEventStep
  rw [apply_ite (State.withInputs · ps c)]
  rfl

theorem keyCancelStep_withInputs (s : State) (ps : List Pins) (c : Nat) :
    (s.withInputs ps c).keyCancelStep = s.keyCancelStep.withInputs ps c := by
  unfold State.keyCancelStep
  rw [apply_ite (State.withInputs · ps c)]
  rfl

section
variable {s : State} {ps : List Pins} {c : Nat} (h : offLoadPort (s.withInputs ps c).pins = offLoadPort s.pins)
include h

/-- The three instructions that read a port read `rnd` or `keys` (R140, R160, R161). -/
theorem exec_withInputs_offLoadPort (i : Instr) : exec i (s.withInputs ps c) = mapNext (State.withInputs · ps c) (exec i s) := by
  have hrand : (s.withInputs ps c).rand8 = s.rand8 := (congrArg Pins.rnd h :)
  have hkey (k : Byte) : (s.withInputs ps c).keyDown k = s.keyDown k := (congrArg (fun p : Pins => p.keys.getLsbD k.toNat) h :)
  cases i with
  | rnd x kk => exact congrArg (fun b => Host.Outcome.next ((s.setReg x (b &&& kk)).withInputs ps c)) hrand
  | skp x =>
    refine congrArg Host.Outcome.next ((skipIf_withInputs s ps c _).trans ?_)
    exact congrArg (fun b => (s.skipIf b).withInputs ps c) (hkey (s.reg x))
  | sknp x =>
    refine congrArg Host.Outcome.next ((skipIf_withInputs s ps c _).trans ?_)
    exact congrArg (fun b => (s.skipIf !b).withInputs ps c) (hkey (s.reg x))
  | _ => exact exec_withInputs _ s ps c nofun

theorem cpuStep_withInputs : cpuStep (s.withInputs ps c) = mapNext (State.withInputs · ps c) (cpuStep s) := by
  obtain ⟨hpc, hs⟩ | ⟨e, hpc, he, hs⟩ | ⟨i, hpc, hi, hs⟩ := cpuStep_cases s
  · rw [hs]
    exact cpuStep_of_past hpc
  · rw [hs]
    exact cpuStep_of_error hpc he
  · calc cpuStep (s.withInputs ps c)
        = exec i (s.advancePc.withInputs ps c) := cpuStep_of_ok hpc hi
      _ = mapNext (State.withInputs · ps c) (exec i s.advancePc) := exec_withInputs_offLoadPort (s := s.advancePc) h i
      _ = mapNext (State.withInputs · ps c) (cpuStep s) := by rw [hs]

theorem schedule_withInputs : schedule (s.withInputs ps c) = mapNext (State.withInputs · ps c) (schedule s) := by
  have hcpu := cpuStep_withInputs (s := { s with ipend := false }) h
  unfold schedule
  rw [apply_ite (mapNext _), apply_ite (mapNext _)]
  exact ite_congr rfl (fun _ => rfl) fun _ => ite_congr rfl (fun _ => hcpu) fun _ => rfl

theorem turn_withInputs : turn (s.withInputs ps c) = mapNext (State.withInputs · ps c) (turn s) := by
  have hevent : (s.withInputs ps c).pins.keyEvent = s.pins.keyEvent := (congrArg Pins.keyEvent h :)
  have hcancel : (s.withInputs ps c).pins.kwCancel = s.pins.kwCancel := (congrArg Pins.kwCancel h :)
  have hrun : (s.withInputs ps c).pins.run = s.pins.run := (congrArg Pins.run h :)
  have hwaiting : (s.withInputs ps c).waiting = s.waiting := rfl
  unfold turn
  rw [hwaiting, hevent, hcancel, hrun, keyEventStep_withInputs, keyCancelStep_withInputs, schedule_withInputs h]
  rw [apply_ite (mapNext _), apply_ite (mapNext _), apply_ite (mapNext _)]
  rfl

theorem step_withInputs_of_no_rst (hrst : s.pins.rst = false) :
    step (s.withInputs ps c) = mapNext (fun u => (u.withInputs ps c).endCycle (s.withInputs ps c).pins) (turn s) := by
  have hrst' : (s.withInputs ps c).pins.rst = s.pins.rst := (congrArg Pins.rst h :)
  rw [step_of_no_rst (hrst'.trans hrst), turn_withInputs h, mapNext_mapNext]

end

/-- The end of an edge with `run = 1` does not look at the load port. -/
theorem endCycle_withInputs_of_run (u : State) (p q : Pins) (rest : List Pins) (c : Nat) (hp : p.run = true)
    (h : offLoadPort q = offLoadPort p) :
    (u.withInputs (q :: rest) c).endCycle q = (u.withInputs (p :: rest) c).endCycle p := by
  have hq : q.run = true := (congrArg Pins.run h :).trans hp
  have hitick : q.itick = p.itick := (congrArg Pins.itick h :)
  have httick : q.ttick = p.ttick := (congrArg Pins.ttick h :)
  rw [endCycle_run _ _ hp, endCycle_run _ _ hq, hitick, httick]
  rfl

/-- An edge with `run = 1` is the same for all levels on the load port. -/
theorem step_withInputs_of_run (s : State) (p q : Pins) (rest : List Pins) (c : Nat) (hp : p.run = true)
    (h : offLoadPort q = offLoadPort p) : step (s.withInputs (q :: rest) c) = step (s.withInputs (p :: rest) c) := by
  have hrst : q.rst = p.rst := (congrArg Pins.rst h :)
  cases hr : p.rst with
  | true =>
    calc step (s.withInputs (q :: rest) c)
        = .next (s.withInputs (q :: rest) c).resetBlock.tickCycle := step_of_rst (hrst.trans hr)
      _ = step (s.withInputs (p :: rest) c) := (step_of_rst (s := s.withInputs (p :: rest) c) hr).symm
  | false =>
    calc step (s.withInputs (q :: rest) c)
        = mapNext (fun u => (u.withInputs (q :: rest) c).endCycle q) (turn (s.withInputs (p :: rest) c)) :=
          step_withInputs_of_no_rst (s := s.withInputs (p :: rest) c) h hr
      _ = mapNext (fun u => (u.withInputs (p :: rest) c).endCycle p) (turn (s.withInputs (p :: rest) c)) :=
          congrArg (mapNext · _) (funext fun u => endCycle_withInputs_of_run u p q rest c hp h)
      _ = step (s.withInputs (p :: rest) c) := (step_withInputs_of_no_rst (s := s.withInputs (p :: rest) c) rfl hr).symm

/-- Settles O39: paused, the load port is all that touches memory; running, the turn is the same and the port is used up unread. -/
theorem loadPortWritesOnlyWhilePaused : Obligations.LoadPortWritesOnlyWhilePaused := by
  unfold Obligations.LoadPortWritesOnlyWhilePaused
  refine ⟨fun s => step_paused_readByte, fun s p rest we addr data hin hrun => ?_⟩
  calc step (s.withInputs ({ p with ldWe := we, ldAddr := addr, ldData := data } :: rest) s.cycle)
      = step (s.withInputs (p :: rest) s.cycle) := step_withInputs_of_run s p _ rest s.cycle hrun rfl
    _ = step s := by rw [← hin]; rfl

end Sys2Proof.Machine
end

section
/-! SUPPORT. The encoding (`30_encoding.md`): the round trip (O41); every answer of the decoder is right for its word (`decodeWord_answer`:
O42 and O44); the opcode map gives the same answers (O43); the spec's vectors (O45). -/

namespace Sys2Proof

/-! ### Decoding an encoded instruction (R71) -/

/-- Settles O41: the round trips of the 35 instructions. -/
theorem decodeInvertsEncode : Obligations.DecodeInvertsEncode := by
  unfold Obligations.DecodeInvertsEncode
  intro i
  cases i with
  | cls => exact Laws.RoundTrip.cls
  | ret => exact Laws.RoundTrip.ret
  | sys nnn => exact Laws.RoundTrip.sys nnn
  | jp nnn => exact Laws.RoundTrip.jp nnn
  | call nnn => exact Laws.RoundTrip.call nnn
  | seImm x kk => exact Laws.RoundTrip.seImm x kk
  | sneImm x kk => exact Laws.RoundTrip.sneImm x kk
  | seReg x y => exact Laws.RoundTrip.seReg x y
  | ldImm x kk => exact Laws.RoundTrip.ldImm x kk
  | addImm x kk => exact Laws.RoundTrip.addImm x kk
  | ldReg x y => exact Laws.RoundTrip.ldReg x y
  | orReg x y => exact Laws.RoundTrip.orReg x y
  | andReg x y => exact Laws.RoundTrip.andReg x y
  | xorReg x y => exact Laws.RoundTrip.xorReg x y
  | addReg x y => exact Laws.RoundTrip.addReg x y
  | subReg x y => exact Laws.RoundTrip.subReg x y
  | shr x y => exact Laws.RoundTrip.shr x y
  | subnReg x y => exact Laws.RoundTrip.subnReg x y
  | shl x y => exact Laws.RoundTrip.shl x y
  | sneReg x y => exact Laws.RoundTrip.sneReg x y
  | ldI nnn => exact Laws.RoundTrip.ldI nnn
  | jpV0 nnn => exact Laws.RoundTrip.jpV0 nnn
  | rnd x kk => exact Laws.RoundTrip.rnd x kk
  | drw x y n => exact Laws.RoundTrip.drw x y n
  | skp x => exact Laws.RoundTrip.skp x
  | sknp x => exact Laws.RoundTrip.sknp x
  | ldVxDt x => exact Laws.RoundTrip.ldVxDt x
  | ldVxK x => exact Laws.RoundTrip.ldVxK x
  | ldDtVx x => exact Laws.RoundTrip.ldDtVx x
  | ldStVx x => exact Laws.RoundTrip.ldStVx x
  | addI x => exact Laws.RoundTrip.addI x
  | ldF x => exact Laws.RoundTrip.ldF x
  | ldB x => exact Laws.RoundTrip.ldB x
  | storeRegs x => exact Laws.RoundTrip.storeRegs x
  | loadRegs x => exact Laws.RoundTrip.loadRegs x

/-! ### What the decoder answers (R64 to R69) -/

/-- A word of family 5, 8, 9, E or F whose selector names none of the family's operations (R66 to R69); see `illegalWord_iff`. -/
def IllegalWord (w : Word) : Prop :=
  ((fieldOp w).toNat = 0x5 ∧ (fieldN w).toNat ≠ 0) ∨
  ((fieldOp w).toNat = 0x8 ∧ (fieldN w).toNat ∉ [0x0, 0x1, 0x2, 0x3, 0x4, 0x5, 0x6, 0x7, 0xE]) ∨
  ((fieldOp w).toNat = 0x9 ∧ (fieldN w).toNat ≠ 0) ∨
  ((fieldOp w).toNat = 0xE ∧ (fieldKK w).toNat ∉ [0x9E, 0xA1]) ∨
  ((fieldOp w).toNat = 0xF ∧ (fieldKK w).toNat ∉ [0x07, 0x0A, 0x15, 0x18, 0x1E, 0x29, 0x33, 0x55, 0x65])

/-- A right answer of a decoder for a word: the instruction that the word encodes, or an error for an illegal word. -/
def RightAnswer (w : Word) : Except DecodeError Instr → Prop
  | .ok i => i.wellFormed = true ∧ encode i = w
  | .error e => e = .illegal w ∧ IllegalWord w

section
variable {w : Word}

theorem packNNN_of_op {op : Nibble} (hop : (fieldOp w).toNat = op.toNat) : packNNN op (fieldNNN w) = w := by
  rw [← BitVec.eq_of_toNat_eq hop, packNNN_fields]

theorem packXKK_of_op {op : Nibble} (hop : (fieldOp w).toNat = op.toNat) : packXKK op (fieldX w) (fieldKK w) = w := by
  rw [← BitVec.eq_of_toNat_eq hop, packXKK_fields]

theorem packXYN_of_op {op : Nibble} (hop : (fieldOp w).toNat = op.toNat) :
    packXYN op (fieldX w) (fieldY w) (fieldN w) = w := by
  rw [← BitVec.eq_of_toNat_eq hop, packXYN_fields]

/-- Format X: the selector fills the trailing byte. -/
theorem packXKK_of_selector {op : Nibble} {kk : Byte} (hop : (fieldOp w).toNat = op.toNat) (hkk : (fieldKK w).toNat = kk.toNat) :
    packXKK op (fieldX w) kk = w := by
  rw [← BitVec.eq_of_toNat_eq hkk, packXKK_of_op hop]

/-- Format XY: the selector fills the trailing nibble. -/
theorem packXYN_of_selector {op n : Nibble} (hop : (fieldOp w).toNat = op.toNat) (hn : (fieldN w).toNat = n.toNat) :
    packXYN op (fieldX w) (fieldY w) n = w := by
  rw [← BitVec.eq_of_toNat_eq hn, packXYN_of_op hop]

theorem decodeFamily0_answer (hop : (fieldOp w).toNat = 0x0) : RightAnswer w (.ok (decodeFamily0 w)) := by
  have hw : packNNN 0x0#4 (fieldNNN w) = w := packNNN_of_op hop
  unfold decodeFamily0
  split
  next hcls => exact ⟨rfl, by rw [← hw, hcls]; rfl⟩
  next hcls =>
    split
    next hret => exact ⟨rfl, by rw [← hw, hret]; rfl⟩
    next hret => exact ⟨by simp [Instr.wellFormed, hcls, hret], hw⟩

theorem decodeFamily8_answer (hop : (fieldOp w).toNat = 0x8) : RightAnswer w (decodeFamily8 w) := by
  unfold decodeFamily8
  split
  case h_10 => exact ⟨rfl, .inr (.inl ⟨hop, by simp_all⟩)⟩
  all_goals exact ⟨rfl, packXYN_of_selector hop ‹_›⟩

theorem decodeFamilyE_answer (hop : (fieldOp w).toNat = 0xE) : RightAnswer w (decodeFamilyE w) := by
  unfold decodeFamilyE
  split
  case h_3 => exact ⟨rfl, .inr (.inr (.inr (.inl ⟨hop, by simp_all⟩)))⟩
  all_goals exact ⟨rfl, packXKK_of_selector hop ‹_›⟩

theorem decodeFamilyF_answer (hop : (fieldOp w).toNat = 0xF) : RightAnswer w (decodeFamilyF w) := by
  unfold decodeFamilyF
  split
  case h_10 => exact ⟨rfl, .inr (.inr (.inr (.inr ⟨hop, by simp_all⟩)))⟩
  all_goals exact ⟨rfl, packXKK_of_selector hop ‹_›⟩

end

/-- What the decoder answers, family by family in the order of its branches. -/
theorem decodeWord_answer {w : Word} {a : Except DecodeError Instr} (h : decodeWord w = a) : RightAnswer w a := by
  subst h
  unfold decodeWord
  split
  next hop => exact decodeFamily0_answer hop
  next hop => exact ⟨rfl, packNNN_of_op hop⟩
  next hop => exact ⟨rfl, packNNN_of_op hop⟩
  next hop => exact ⟨rfl, packXKK_of_op hop⟩
  next hop => exact ⟨rfl, packXKK_of_op hop⟩
  next hop =>
    split
    next hn => exact ⟨rfl, packXYN_of_selector hop (congrArg BitVec.toNat hn)⟩
    next hn => exact ⟨rfl, .inl ⟨hop, fun h0 => hn (BitVec.eq_of_toNat_eq h0)⟩⟩
  next hop => exact ⟨rfl, packXKK_of_op hop⟩
  next hop => exact ⟨rfl, packXKK_of_op hop⟩
  next hop => exact decodeFamily8_answer hop
  next hop =>
    split
    next hn => exact ⟨rfl, packXYN_of_selector hop (congrArg BitVec.toNat hn)⟩
    next hn => exact ⟨rfl, .inr (.inr (.inl ⟨hop, fun h0 => hn (BitVec.eq_of_toNat_eq h0)⟩))⟩
  next hop => exact ⟨rfl, packNNN_of_op hop⟩
  next hop => exact ⟨rfl, packNNN_of_op hop⟩
  next hop => exact ⟨rfl, packXKK_of_op hop⟩
  next hop => exact ⟨rfl, packXYN_of_op hop⟩
  next hop => exact decodeFamilyE_answer hop
  case h_16 =>
    have hlt : (fieldOp w).toNat < 16 := (fieldOp w).isLt
    simp only [imp_false] at *
    exact decodeFamilyF_answer (by omega)

/-- Settles O42: the decoder's answer is right. -/
theorem encodeInvertsDecode : Obligations.EncodeInvertsDecode := by
  unfold Obligations.EncodeInvertsDecode
  intro w i h
  exact decodeWord_answer h

/-! ### The illegal words (R69) -/

theorem decodeWord_of_illegal {w : Word} (h : IllegalWord w) : decodeWord w = .error (.illegal w) := by
  unfold IllegalWord at h
  simp only [List.mem_cons, List.not_mem_nil, or_false, not_or] at h
  obtain ⟨hop, hsel⟩ | ⟨hop, hsel⟩ | ⟨hop, hsel⟩ | ⟨hop, hsel⟩ | ⟨hop, hsel⟩ := h
  all_goals simp [decodeWord, decodeFamily8, decodeFamilyE, decodeFamilyF, BitVec.toNat_eq, hop, hsel]

theorem illegalWord_iff (w : Word) : decodeWord w = .error (.illegal w) ↔ IllegalWord w :=
  ⟨fun h => (decodeWord_answer h).2, decodeWord_of_illegal⟩

/-- The selectors of family 8 that R69 lists are the ones left over by R66. -/
theorem selector8_illegal_iff (n : Nibble) :
    n.toNat ∉ [0x0, 0x1, 0x2, 0x3, 0x4, 0x5, 0x6, 0x7, 0xE] ↔ n.toNat ∈ [0x8, 0x9, 0xA, 0xB, 0xC, 0xD, 0xF] := by
  revert n; decide

/-- Settles O44: the same families, with the fields written as numbers. -/
theorem illegalWordsByFamily : Obligations.IllegalWordsByFamily := by
  unfold Obligations.IllegalWordsByFamily
  intro w
  rw [illegalWord_iff, IllegalWord, selector8_illegal_iff, fieldOp_toNat, fieldN_toNat, fieldKK_toNat]

/-! ### The opcode map (R64)

Each mask reads whole fields, so a row's test on a word is one of fields, which `simp` decides for an encoded instruction. -/

@[simp] theorem fieldOp_ofNat (n : Nat) : fieldOp (BitVec.ofNat 16 n) = BitVec.ofNat 4 (n / 4096) := by
  apply BitVec.eq_of_toNat_eq
  rw [fieldOp_toNat, BitVec.toNat_ofNat, BitVec.toNat_ofNat]
  omega

@[simp] theorem fieldX_ofNat (n : Nat) : fieldX (BitVec.ofNat 16 n) = BitVec.ofNat 4 (n / 256) := by
  apply BitVec.eq_of_toNat_eq
  rw [fieldX, BitVec.extractLsb'_toNat, Nat.shiftRight_eq_div_pow, BitVec.toNat_ofNat, BitVec.toNat_ofNat]
  omega

@[simp] theorem fieldY_ofNat (n : Nat) : fieldY (BitVec.ofNat 16 n) = BitVec.ofNat 4 (n / 16) := by
  apply BitVec.eq_of_toNat_eq
  rw [fieldY, BitVec.extractLsb'_toNat, Nat.shiftRight_eq_div_pow, BitVec.toNat_ofNat, BitVec.toNat_ofNat]
  omega

@[simp] theorem fieldN_ofNat (n : Nat) : fieldN (BitVec.ofNat 16 n) = BitVec.ofNat 4 n := by
  apply BitVec.eq_of_toNat_eq
  rw [fieldN_toNat, BitVec.toNat_ofNat, BitVec.toNat_ofNat]
  omega

@[simp] theorem fieldKK_ofNat (n : Nat) : fieldKK (BitVec.ofNat 16 n) = BitVec.ofNat 8 n := by
  apply BitVec.eq_of_toNat_eq
  rw [fieldKK_toNat, BitVec.toNat_ofNat, BitVec.toNat_ofNat]
  omega

@[simp] theorem fieldNNN_ofNat (n : Nat) : fieldNNN (BitVec.ofNat 16 n) = BitVec.ofNat 12 n := by
  apply BitVec.eq_of_toNat_eq
  rw [fieldNNN, BitVec.extractLsb'_toNat, Nat.shiftRight_eq_div_pow, BitVec.toNat_ofNat, BitVec.toNat_ofNat]
  omega

section
variable {w b : Word}

@[simp] theorem and_FFFF_eq_iff : w &&& 0xFFFF#16 = b ↔ fieldOp w = fieldOp b ∧ fieldNNN w = fieldNNN b := by
  rw [show w &&& 0xFFFF#16 = w from BitVec.and_allOnes]
  refine ⟨fun h => by simp [h], fun ⟨hop, ha⟩ => ?_⟩
  rw [← packNNN_fields w, hop, ha, packNNN_fields]

@[simp] theorem and_F000_eq_iff : w &&& 0xF000#16 = b ↔ fieldOp w = fieldOp b ∧ fieldNNN b = 0#12 := by
  rw [and_F000]
  refine ⟨fun h => by simp [← h], fun ⟨hop, ha⟩ => ?_⟩
  rw [hop, ← ha, packNNN_fields]

@[simp] theorem and_F00F_eq_iff :
    w &&& 0xF00F#16 = b ↔ fieldOp w = fieldOp b ∧ fieldN w = fieldN b ∧ fieldX b = 0#4 ∧ fieldY b = 0#4 := by
  rw [and_F00F]
  refine ⟨fun h => by simp [← h], fun ⟨hop, hn, hx, hy⟩ => ?_⟩
  calc packXYN (fieldOp w) 0#4 0#4 (fieldN w)
      = packXYN (fieldOp b) (fieldX b) (fieldY b) (fieldN b) := by rw [hop, hn, hx, hy]
    _ = b := packXYN_fields b

@[simp] theorem and_F0FF_eq_iff :
    w &&& 0xF0FF#16 = b ↔ fieldOp w = fieldOp b ∧ fieldKK w = fieldKK b ∧ fieldX b = 0#4 := by
  rw [and_F0FF]
  refine ⟨fun h => by simp [← h], fun ⟨hop, hkk, hx⟩ => ?_⟩
  rw [hop, hkk, ← hx, packXKK_fields]

end

theorem tableDecode_encode {i : Instr} (h : i.wellFormed = true) : tableDecode (encode i) = some i := by
  cases i
  case sys nnn =>
    simp only [Instr.wellFormed, Bool.and_eq_true, bne_iff_ne] at h
    simp [tableDecode, opcodeRows, opcodeRowsA, encode, h]
  all_goals simp [tableDecode, opcodeRows, opcodeRowsA, opcodeRowsB, opcodeRowsC, encode]

theorem tableDecode_of_illegal {w : Word} (h : IllegalWord w) : tableDecode w = none := by
  unfold IllegalWord at h
  simp only [List.mem_cons, List.not_mem_nil, or_false, not_or] at h
  obtain ⟨hop, hsel⟩ | ⟨hop, hsel⟩ | ⟨hop, hsel⟩ | ⟨hop, hsel⟩ | ⟨hop, hsel⟩ := h
  all_goals simp [tableDecode, opcodeRows, opcodeRowsA, opcodeRowsB, opcodeRowsC, BitVec.toNat_eq (x := fieldOp w),
    BitVec.toNat_eq (x := fieldN w), BitVec.toNat_eq (x := fieldKK w), hop, hsel]

/-- Settles O43: decoder and map agree on a word that encodes an instruction and on an illegal one, and there are no others. -/
theorem decoderAgreesWithTheOpcodeMap : Obligations.DecoderAgreesWithTheOpcodeMap := by
  unfold Obligations.DecoderAgreesWithTheOpcodeMap
  intro w
  cases h : decodeWord w with
  | ok i =>
    obtain ⟨hwf, rfl⟩ := decodeWord_answer h
    rw [tableDecode_encode hwf]
  | error e =>
    obtain ⟨rfl, hill⟩ := decodeWord_answer h
    rw [tableDecode_of_illegal hill]

/-! ### The spec's vectors and family 0 (R65) -/

theorem decodeWord_family0 (nnn : Addr12) : decodeWord (packNNN 0x0#4 nnn) =
    .ok (if nnn = 0x0E0#12 then .cls else if nnn = 0x0EE#12 then .ret else .sys nnn) := by
  simp [decodeWord, decodeFamily0]

/-- Settles O45: the vectors by evaluation, family 0 by its decoder. -/
theorem wordsDecodeAsTheSpecSays : Obligations.WordsDecodeAsTheSpecSays :=
  ⟨rfl, rfl, rfl, rfl, rfl, rfl, decodeWord_family0⟩

end Sys2Proof
end

section
/-! SUPPORT. Control transfer (`40_control_flow.md`): jumps (O1, O2), the call stack (O3, O4) and a CALL and RET together (O57), and the
skips (O5, O6). -/

namespace Sys2Proof.Machine

/-! ### Jumps (R80, R81, R84) -/

theorem zext16_addr_toNat (a : Addr12) : (zext16 a).toNat = a.toNat := BitVec.toNat_setWidth_of_le (by decide)

/-- The sum of a 12-bit and an 8-bit number stays below 2^16. -/
theorem jumpV0Target_toNat (s : State) (nnn : Addr12) : (s.jumpV0Target nnn).toNat = nnn.toNat + (s.reg 0#4).toNat := by
  have := nnn.isLt
  have := (s.reg 0#4).isLt
  rw [State.jumpV0Target, BitVec.toNat_add, BitVec.toNat_setWidth, BitVec.toNat_setWidth]
  omega

/-- Settles O1: both forms set the PC to the extended address. -/
theorem jumpAndSystemFormSetThePc : Obligations.JumpAndSystemFormSetThePc := by
  unfold Obligations.JumpAndSystemFormSetThePc
  intro nnn s
  refine ⟨fun hcls hret => Laws.RoundTrip.sys nnn ?_, Laws.RoundTrip.jp nnn rfl,
    ⟨_, rfl, zext16_addr_toNat nnn, rfl⟩, ⟨_, rfl, zext16_addr_toNat nnn, rfl⟩⟩
  simp [Instr.wellFormed, hcls, hret]

/-- Settles O2: the target as a number. -/
theorem jumpWithOffsetAddsV0 : Obligations.JumpWithOffsetAddsV0 := by
  unfold Obligations.JumpWithOffsetAddsV0
  intro nnn s
  exact ⟨Laws.RoundTrip.jpV0 nnn rfl, _, rfl, jumpV0Target_toNat s nnn, rfl⟩

/-! ### The call stack (R82, R83, R193, R194) -/

theorem popPc_pc_of_sp (s : State) (h : 0 < s.sp.val) {k : Fin 16} (hk : s.sp.val = k.val + 1) : (s.popPc h).pc = s.slot k := by
  have hk' : s.sp.val - 1 = k.val := by omega
  rw [popPc_pc_eq s h (hk' ▸ k.isLt)]
  exact congrArg s.slot (Fin.ext hk')

/-- Settles O3: with room the call is a push and a jump, with a full stack a raise. -/
theorem callPushesTheReturnAddress : Obligations.CallPushesTheReturnAddress := by
  unfold Obligations.CallPushesTheReturnAddress
  intro nnn s
  refine ⟨Laws.RoundTrip.call nnn rfl, fun hroom => ?_, fun hfull => ?_⟩
  · exact ⟨_, exec_call_of_lt nnn s hroom, rfl, zext16_addr_toNat nnn, slot_push s s.pc hroom, rfl⟩
  · rw [exec_call_full nnn s (by omega), BitVec.ofNat_toNat]
    rfl

/-- Settles O4: with an address held the return is a pop, with an empty stack a raise. -/
theorem returnPopsTheReturnAddress : Obligations.ReturnPopsTheReturnAddress := by
  unfold Obligations.ReturnPopsTheReturnAddress
  refine ⟨rfl, fun s => ⟨fun k hk => ?_, fun hempty => ?_⟩⟩
  · have hpos : 0 < s.sp.val := by omega
    exact ⟨_, exec_ret_of_pos s hpos, (popPc_sp_val s hpos).trans (by omega), popPc_pc_of_sp s hpos hk, rfl⟩
  · rw [exec_ret_empty s (by omega)]
    rfl

/-- Settles O57: RET reads the slot that CALL wrote (O3, O4); the fetch between them touches the PC alone. -/
theorem returnComesBackToTheCall : Obligations.ReturnComesBackToTheCall := by
  unfold Obligations.ReturnComesBackToTheCall
  intro nnn s hroom
  obtain ⟨-, hcall, -⟩ := callPushesTheReturnAddress nnn s
  obtain ⟨t, ht, hsp, -, hslot, -⟩ := hcall hroom
  obtain ⟨hret, -⟩ := returnPopsTheReturnAddress.2 { t with pc := t.pc + 2#16 }
  obtain ⟨u, hu, husp, hupc, -⟩ := hret ⟨s.sp.val, hroom⟩ hsp
  have hpc : u.pc = s.pc := by
    calc u.pc = t.slot ⟨s.sp.val, hroom⟩ := hupc
      _ = s.pc := by rw [hslot, if_pos rfl]
  exact ⟨t, u, ht, hu, hpc, Fin.ext husp⟩

/-! ### Skips (R85 to R88) -/

theorem skipIf_only_pc (s : State) (b : Bool) : s.skipIf b = { s with pc := (s.skipIf b).pc } := by
  rw [skipIf_frame]

theorem skipIf_beq_pc_toNat (s : State) (a b : Byte) :
    (s.skipIf (a == b)).pc.toNat = if a.toNat = b.toNat then (s.pc.toNat + 2) % 2 ^ 16 else s.pc.toNat := by
  simp only [skipIf_pc_toNat, beq_iff_eq, BitVec.toNat_eq]

theorem skipIf_bne_pc_toNat (s : State) (a b : Byte) :
    (s.skipIf (a != b)).pc.toNat = if a.toNat = b.toNat then s.pc.toNat else (s.pc.toNat + 2) % 2 ^ 16 := by
  simp only [skipIf_pc_toNat, bne_iff_ne, ne_eq, BitVec.toNat_eq, ite_not]

/-- Settles O5: each skip as a comparison of numbers. -/
theorem immediateSkipsCompare : Obligations.ImmediateSkipsCompare := by
  unfold Obligations.ImmediateSkipsCompare
  intro x kk s
  exact ⟨Laws.RoundTrip.seImm x kk rfl, Laws.RoundTrip.sneImm x kk rfl,
    ⟨_, rfl, skipIf_only_pc s _, skipIf_beq_pc_toNat s (s.reg x) kk⟩,
    ⟨_, rfl, skipIf_only_pc s _, skipIf_bne_pc_toNat s (s.reg x) kk⟩⟩

/-- In families 5 and 9 a trailing nibble other than 0 selects no instruction (R68). -/
theorem illegalWord_of_trailing_nibble (x y : RegIdx) {n : Nibble} (hn : n ≠ 0#4) :
    IllegalWord (packXYN 0x5#4 x y n) ∧ IllegalWord (packXYN 0x9#4 x y n) := by
  have hn' : n.toNat ≠ 0 := fun h => hn (BitVec.eq_of_toNat_eq h)
  constructor
  · exact .inl ⟨by rw [fieldOp_packXYN]; rfl, by rwa [fieldN_packXYN]⟩
  · exact .inr (.inr (.inl ⟨by rw [fieldOp_packXYN]; rfl, by rwa [fieldN_packXYN]⟩))

/-- Settles O6: the skips as in O5, and the words that are no skip are illegal. -/
theorem registerSkipsCompare : Obligations.RegisterSkipsCompare := by
  unfold Obligations.RegisterSkipsCompare
  intro x y s
  refine ⟨Laws.RoundTrip.seReg x y rfl, Laws.RoundTrip.sneReg x y rfl, fun n hn => ?_,
    ⟨_, rfl, skipIf_only_pc s _, skipIf_beq_pc_toNat s (s.reg x) (s.reg y)⟩,
    ⟨_, rfl, skipIf_only_pc s _, skipIf_bne_pc_toNat s (s.reg x) (s.reg y)⟩⟩
  obtain ⟨h5, h9⟩ := illegalWord_of_trailing_nibble x y hn
  exact ⟨decodeWord_of_illegal h5, decodeWord_of_illegal h9⟩

end Sys2Proof.Machine
end

section
/-! SUPPORT. Register load, arithmetic and logic (`41_alu.md`): the instructions without a flag (O7, O8), the sums and differences with
their carry and NOT borrow (O9, O10), and the shifts (O11). -/

namespace Sys2Proof.Machine

/-! ### What the two kinds of write leave in the registers -/

theorem reg_setReg_self (s : State) (x : RegIdx) (b : Byte) : (s.setReg x b).reg x = b := by
  rw [reg_setReg, if_pos rfl]

theorem reg_setReg_of_ne (s : State) (x : RegIdx) (b : Byte) (r : RegIdx) (hr : r ≠ x) : (s.setReg x b).reg r = s.reg r := by
  rw [reg_setReg, if_neg hr]

/-- R111: the result stands in `V[x]` unless the flag was written over it; the flag stands in VF whatever `x` is. -/
theorem writeWithFlag_regs (s : State) (x : RegIdx) {b : Byte} {f : Bool} {result flag : Nat} (hresult : b.toNat = result)
    (hflag : (flagByte f).toNat = flag) :
    (x ≠ VF → ((s.writeWithFlag x b f).reg x).toNat = result) ∧ ((s.writeWithFlag x b f).reg VF).toNat = flag ∧
      ∀ r, r ≠ x → r ≠ VF → (s.writeWithFlag x b f).reg r = s.reg r := by
  refine ⟨fun hx => ?_, ?_, fun r hrx hrf => ?_⟩
  · rw [reg_writeWithFlag, if_neg hx, if_pos rfl, hresult]
  · rw [reg_writeWithFlag, if_pos rfl, hflag]
  · rw [reg_writeWithFlag, if_neg hrf, if_neg hrx]

/-! ### Results and flags as numbers (R106 to R112) -/

theorem carry_flag_toNat (a b : Byte) : (flagByte (carryOut a b)).toNat = if 255 < a.toNat + b.toNat then 1 else 0 := by
  simp only [flagByte_toNat, carryOut_eq, decide_eq_true_eq]

theorem noBorrow_flag_toNat (a b : Byte) : (flagByte (noBorrow a b)).toNat = if b.toNat ≤ a.toNat then 1 else 0 := by
  simp only [flagByte_toNat, noBorrow_eq, decide_eq_true_eq]

theorem byte_sub_toNat (a b : Byte) : (a - b).toNat = (a.toNat + 256 - b.toNat) % 256 := by
  have := b.isLt
  rw [BitVec.toNat_sub]
  omega

theorem byte_shiftRight_one_toNat (v : Byte) : (v >>> 1).toNat = v.toNat / 2 := by
  rw [BitVec.toNat_ushiftRight, Nat.shiftRight_eq_div_pow]

theorem byte_shiftLeft_one_toNat (v : Byte) : (v <<< 1).toNat = v.toNat * 2 % 256 := by
  rw [BitVec.toNat_shiftLeft, Nat.shiftLeft_eq]

theorem shiftedOutRight_flag_toNat (v : Byte) : (flagByte (shiftedOutRight v)).toNat = v.toNat % 2 := by
  simp only [flagByte_toNat, shiftedOutRight, BitVec.getLsbD, Nat.testBit_eq_decide_div_mod_eq, decide_eq_true_eq]
  split <;> omega

theorem shiftedOutLeft_flag_toNat (v : Byte) : (flagByte (shiftedOutLeft v)).toNat = v.toNat / 128 := by
  have := v.isLt
  simp only [flagByte_toNat, shiftedOutLeft, BitVec.getLsbD, Nat.testBit_eq_decide_div_mod_eq, decide_eq_true_eq]
  split <;> omega

/-- The register that SHIFT_SRC selects, given by what it holds under each setting. -/
theorem shiftOperand_of_shiftSrc {x y : RegIdx} {s : State} {v : Byte} (hvx : s.params.shiftSrc = .vx → v = s.reg x)
    (hvy : s.params.shiftSrc = .vy → v = s.reg y) : s.shiftOperand x y = v := by
  rw [State.shiftOperand]
  cases hsrc : s.params.shiftSrc with
  | vx => exact (hvx hsrc).symm
  | vy => exact (hvy hsrc).symm

/-! ### Without a flag (R100 to R105) -/

/-- Settles O7: both forms are one write to `V[x]`. -/
theorem immediateLoadAndAddSetNoFlag : Obligations.ImmediateLoadAndAddSetNoFlag := by
  unfold Obligations.ImmediateLoadAndAddSetNoFlag
  intro x kk s
  refine ⟨Laws.RoundTrip.ldImm x kk rfl, Laws.RoundTrip.addImm x kk rfl,
    ⟨_, rfl, rfl, reg_setReg_self s x kk, reg_setReg_of_ne s x kk⟩, ⟨_, rfl, rfl, ?_, reg_setReg_of_ne s x _⟩⟩
  rw [reg_setReg_self, BitVec.toNat_add]

/-- Settles O8: each of the four is one write to `V[x]`, read bit by bit. -/
theorem moveAndLogicSetNoFlag : Obligations.MoveAndLogicSetNoFlag := by
  unfold Obligations.MoveAndLogicSetNoFlag
  intro x y s
  refine ⟨Laws.RoundTrip.ldReg x y rfl, Laws.RoundTrip.orReg x y rfl, Laws.RoundTrip.andReg x y rfl,
    Laws.RoundTrip.xorReg x y rfl, ⟨_, rfl, rfl, reg_setReg_self s x _, reg_setReg_of_ne s x _⟩,
    ⟨_, rfl, rfl, fun k _ => ?or, reg_setReg_of_ne s x _⟩, ⟨_, rfl, rfl, fun k _ => ?and, reg_setReg_of_ne s x _⟩,
    ⟨_, rfl, rfl, fun k _ => ?xor, reg_setReg_of_ne s x _⟩⟩
  case or => rw [reg_setReg_self, BitVec.getLsbD_or]
  case and => rw [reg_setReg_self, BitVec.getLsbD_and]
  case xor => rw [reg_setReg_self, BitVec.getLsbD_xor]

/-! ### With a flag (R106 to R110) -/

/-- Settles O9: the sum, and the carry as a comparison of numbers. -/
theorem addSetsTheCarry : Obligations.AddSetsTheCarry := by
  unfold Obligations.AddSetsTheCarry
  intro x y s
  exact ⟨Laws.RoundTrip.addReg x y rfl, _, rfl, rfl,
    writeWithFlag_regs s x (BitVec.toNat_add _ _) (carry_flag_toNat (s.reg x) (s.reg y))⟩

/-- Settles O10: the two differences, and NOT borrow as a comparison of numbers. -/
theorem subtractSetsNotBorrow : Obligations.SubtractSetsNotBorrow := by
  unfold Obligations.SubtractSetsNotBorrow
  intro x y s
  exact ⟨Laws.RoundTrip.subReg x y rfl, Laws.RoundTrip.subnReg x y rfl,
    ⟨_, rfl, rfl, writeWithFlag_regs s x (byte_sub_toNat _ _) (noBorrow_flag_toNat (s.reg x) (s.reg y))⟩,
    ⟨_, rfl, rfl, writeWithFlag_regs s x (byte_sub_toNat _ _) (noBorrow_flag_toNat (s.reg y) (s.reg x))⟩⟩

/-- Settles O11: the value shifted is the one SHIFT_SRC selects; halved or doubled, and the bit out as a remainder or quotient. -/
theorem shiftsMoveOneBitOut : Obligations.ShiftsMoveOneBitOut := by
  unfold Obligations.ShiftsMoveOneBitOut
  intro x y s v hvx hvy
  obtain rfl := shiftOperand_of_shiftSrc hvx hvy
  exact ⟨Laws.RoundTrip.shr x y rfl, Laws.RoundTrip.shl x y rfl,
    ⟨_, rfl, rfl, writeWithFlag_regs s x (byte_shiftRight_one_toNat _) (shiftedOutRight_flag_toNat _)⟩,
    ⟨_, rfl, rfl, writeWithFlag_regs s x (byte_shiftLeft_one_toNat _) (shiftedOutLeft_flag_toNat _)⟩⟩

end Sys2Proof.Machine
end

section
/-! SUPPORT. The I register and memory transfers (`42_index_memory.md`): writes of I (O12, O13), the decimal digits (O14), and the block
store and load (O15, O16) with their round trip (O58). -/

namespace Sys2Proof.Machine

/-! ### The I register (R120 to R122) -/

/-- Settles O12: both forms are one write of I. -/
theorem indexIsLoadedAndAdded : Obligations.IndexIsLoadedAndAdded := by
  unfold Obligations.IndexIsLoadedAndAdded
  intro nnn x s
  have hsum : (s.i + zext16 (s.reg x)).toNat = (s.i.toNat + (s.reg x).toNat) % 2 ^ 16 := by
    rw [BitVec.toNat_add, BitVec.toNat_setWidth_of_le (by decide)]
  exact ⟨Laws.RoundTrip.ldI nnn rfl, Laws.RoundTrip.addI x rfl, ⟨_, rfl, zext16_addr_toNat nnn, rfl⟩, ⟨_, rfl, hsum, rfl⟩⟩

/-- `FONT_BASE` is at most 4016 and the offset at most 75, so the sum does not wrap. -/
theorem glyphAddr_toNat (p : Params) (b : Byte) : (glyphAddr p b).toNat = p.fontBase.val + 5 * (b.toNat % 16) := by
  have := p.fontBase.isLt
  simp only [glyphAddr, BitVec.toNat_add, BitVec.toNat_mul, BitVec.toNat_ofNat, BitVec.toNat_setWidth, BitVec.extractLsb'_toNat,
    Nat.shiftRight_zero]
  omega

/-- Settles O13: the glyph's address as a number. -/
theorem indexPointsAtTheGlyph : Obligations.IndexPointsAtTheGlyph := by
  unfold Obligations.IndexPointsAtTheGlyph
  intro x s
  exact ⟨Laws.RoundTrip.ldF x rfl, _, rfl, glyphAddr_toNat s.params (s.reg x), rfl⟩

/-! ### Past the end of memory (R41, R192) -/

theorem exec_ldB_past (x : RegIdx) (s : State) (h : memSize < s.i.toNat + 3) :
    exec (.ldB x) s = .next (s.raiseHere .memBound (BitVec.ofNat 16 (max s.i.toNat memSize))) :=
  ((exec_ldB_cases x s).resolve_left fun hin => Nat.not_le_of_lt h hin.1).2

theorem exec_storeRegs_past (x : RegIdx) (s : State) (h : memSize < s.i.toNat + blockLen x) :
    exec (.storeRegs x) s = .next (s.raiseHere .memBound (BitVec.ofNat 16 (max s.i.toNat memSize))) :=
  ((exec_storeRegs_cases x s).resolve_left fun hin => Nat.not_le_of_lt h hin.1).2

theorem exec_loadRegs_past (x : RegIdx) (s : State) (h : memSize < s.i.toNat + blockLen x) :
    exec (.loadRegs x) s = .next (s.raiseHere .memBound (BitVec.ofNat 16 (max s.i.toNat memSize))) :=
  ((exec_loadRegs_cases x s).resolve_left fun hin => Nat.not_le_of_lt h hin.1).2

/-! ### Decimal digits (R123) -/

theorem hundreds_toNat (b : Byte) : (hundreds b).toNat = b.toNat / 100 := by
  have := b.isLt
  rw [hundreds, BitVec.toNat_ofNat]
  omega

theorem tens_toNat (b : Byte) : (tens b).toNat = b.toNat / 10 % 10 := by
  rw [tens, BitVec.toNat_ofNat]
  omega

theorem ones_toNat (b : Byte) : (ones b).toNat = b.toNat % 10 := by
  rw [ones, BitVec.toNat_ofNat]
  omega

/-- Settles O14: the three bytes are the digits, which add up to the register; a range past memory is a raise. -/
theorem decimalDigitsAreStored : Obligations.DecimalDigitsAreStored := by
  unfold Obligations.DecimalDigitsAreStored
  intro x s
  refine ⟨Laws.RoundTrip.ldB x rfl, fun hin => ?inside, fun hpast => exec_ldB_past x s (Nat.add_le_add_right hpast 3)⟩
  case inside =>
    have h0 : (s.writeDigits s.i.toNat (s.reg x)).readByte s.i.toNat = hundreds (s.reg x) := by
      rw [readByte_writeDigits, if_pos rfl]
    have h1 : (s.writeDigits s.i.toNat (s.reg x)).readByte (s.i.toNat + 1) = tens (s.reg x) := by
      rw [readByte_writeDigits, if_neg (by omega), if_pos rfl]
    have h2 : (s.writeDigits s.i.toNat (s.reg x)).readByte (s.i.toNat + 2) = ones (s.reg x) := by
      rw [readByte_writeDigits, if_neg (by omega), if_neg (by omega), if_pos rfl]
    refine ⟨_, exec_ldB_inside x s (Nat.add_le_add_right hin 3), rfl, ?digits, ?tens, ?ones, fun a ha => ?outside⟩
    case digits => rw [h0, h1, h2, hundreds_toNat, tens_toNat, ones_toNat]; omega
    case tens => rw [h1, tens_toNat]; omega
    case ones => rw [h2, ones_toNat]; omega
    case outside => rw [readByte_writeDigits, if_neg (by omega), if_neg (by omega), if_neg (by omega)]

/-! ### Block store and load (R124, R125) -/

theorem lt_blockLen_iff {x : RegIdx} {k : Nat} : k < blockLen x ↔ k ≤ x.toNat := Nat.lt_succ_iff

theorem readByte_storeBlock_inside (s : State) (a : Nat) {m : Nat} {k : RegIdx} (hk : k.toNat < m) :
    (s.storeBlock a m).readByte (a + k.toNat) = s.reg k := by
  rw [readByte_storeBlock, if_pos (by omega), Nat.add_sub_cancel_left, BitVec.ofNat_toNat, BitVec.setWidth_eq]

theorem readByte_storeBlock_outside (s : State) {a m b : Nat} (hb : b < a ∨ a + m ≤ b) :
    (s.storeBlock a m).readByte b = s.readByte b := by
  rw [readByte_storeBlock, if_neg (by omega)]

/-- Settles O15: inside memory the block holds the registers, past it the store is a raise. -/
theorem registersAreStored : Obligations.RegistersAreStored := by
  unfold Obligations.RegistersAreStored
  intro x s
  refine ⟨Laws.RoundTrip.storeRegs x rfl, fun hin => ?inside, fun hpast => exec_storeRegs_past x s (Nat.succ_lt_succ hpast)⟩
  case inside =>
    exact ⟨_, exec_storeRegs_inside x s (Nat.succ_le_succ hin), storeBlock_frame s _ _,
      fun k hk => readByte_storeBlock_inside s _ (lt_blockLen_iff.2 hk), fun a ha => readByte_storeBlock_outside s ha⟩

/-- Settles O16: inside memory the registers up to `x` hold the block, past it the load is a raise. -/
theorem registersAreLoaded : Obligations.RegistersAreLoaded := by
  unfold Obligations.RegistersAreLoaded
  intro x s
  have hlen : blockLen x ≤ 16 := x.isLt
  refine ⟨Laws.RoundTrip.loadRegs x rfl, fun hin => ?inside, fun hpast => exec_loadRegs_past x s (Nat.succ_lt_succ hpast)⟩
  case inside =>
    refine ⟨_, exec_loadRegs_inside x s (Nat.succ_le_succ hin), loadBlock_frame s _ _, fun k hk => ?loaded, fun k hk => ?kept⟩
    case loaded => rw [reg_loadBlock s _ hlen, if_pos (lt_blockLen_iff.2 hk)]
    case kept => rw [reg_loadBlock s _ hlen, if_neg (mt lt_blockLen_iff.1 (Nat.not_le_of_lt hk))]

/-- Settles O58: the load (O16) reads the bytes that the store (O15) wrote, since I is the same for both. -/
theorem loadRestoresStoredRegisters : Obligations.LoadRestoresStoredRegisters := by
  unfold Obligations.LoadRestoresStoredRegisters
  intro x s w hin
  obtain ⟨-, hstore, -⟩ := registersAreStored x s
  obtain ⟨t, ht, htframe, hbytes, -⟩ := hstore hin
  have hi : t.i = s.i := by rw [htframe]
  obtain ⟨-, hload, -⟩ := registersAreLoaded x { t with v := w }
  obtain ⟨u, hu, -, hloaded, hkept⟩ := hload (hi ▸ hin)
  refine ⟨t, u, ht, hu, fun k => ⟨fun hk => ?_, hkept k⟩⟩
  calc u.reg k = t.readByte (t.i.toNat + k.toNat) := hloaded k hk
    _ = s.reg k := by rw [hi, hbytes k hk]

end Sys2Proof.Machine
end

section
/-! SUPPORT. The random byte (O17), the timer registers (O18), and that only RND, SKP and SKNP see the inputs in Pins (O56)
(`43_random_timers.md`). -/

namespace Sys2Proof.Machine

/-- Settles O17: the instruction is one write to `V[x]`, read bit by bit. -/
theorem randomByteIsMasked : Obligations.RandomByteIsMasked := by
  unfold Obligations.RandomByteIsMasked
  rintro x kk b s rfl
  refine ⟨Laws.RoundTrip.rnd x kk rfl, _, rfl, rfl, fun k _ => ?_, reg_setReg_of_ne s x _⟩
  rw [reg_setReg_self, BitVec.getLsbD_and, State.rand8]

/-- Settles O18: the read of DT is one write to `V[x]`, the writes of DT and ST touch nothing else. -/
theorem timersAreReadAndWritten : Obligations.TimersAreReadAndWritten := by
  unfold Obligations.TimersAreReadAndWritten
  intro x s
  exact ⟨Laws.RoundTrip.ldVxDt x rfl, Laws.RoundTrip.ldDtVx x rfl, Laws.RoundTrip.ldStVx x rfl,
    ⟨_, rfl, rfl, reg_setReg_self s x s.dt, reg_setReg_of_ne s x s.dt⟩, ⟨_, rfl, rfl⟩, ⟨_, rfl, rfl⟩⟩

theorem readsPins_iff (i : Instr) :
    readsPins i = true ↔ (∃ x kk, i = .rnd x kk) ∨ (∃ x, i = .skp x) ∨ ∃ x, i = .sknp x := by
  cases i <;> simp [readsPins]

/-- Settles O56: an instruction that reads no port commutes with any change of the inputs. -/
theorem inputsReachOnlyThreeInstructions : Obligations.InputsReachOnlyThreeInstructions := by
  unfold Obligations.InputsReachOnlyThreeInstructions
  intro i s t ps c hrnd hskp hsknp h
  have hreads : readsPins i ≠ true := by
    rw [ne_eq, readsPins_iff]
    rintro (⟨x, kk, hi⟩ | ⟨x, hi⟩ | ⟨x, hi⟩)
    · exact hrnd x kk hi
    · exact hskp x hi
    · exact hsknp x hi
  calc exec i (s.withInputs ps c)
      = mapNext (State.withInputs · ps c) (exec i s) := exec_withInputs i s ps c fun hr => absurd hr hreads
    _ = .next (t.withInputs ps c) := by rw [h, mapNext_next]

end Sys2Proof.Machine
end

section
/-! SUPPORT. Display (`44_display.md`): CLS (O19), one DRW as the XOR of the whole grid with the sprite (O20), and the same DRW twice
(O21). -/

namespace Sys2Proof.Machine

/-- Settles O19: the cleared grid reads off everywhere. -/
theorem clearTurnsEveryPixelOff : Obligations.ClearTurnsEveryPixelOff := by
  unfold Obligations.ClearTurnsEveryPixelOff
  exact ⟨Laws.RoundTrip.cls rfl, fun s => ⟨_, rfl, rfl, pixRead_dispClear s⟩⟩

/-! ### One draw (R151, R153) -/

theorem exec_drw_past (x y : RegIdx) (n : Nibble) (s : State) (hn : n ≠ 0#4) (h : memSize < s.i.toNat + n.toNat) :
    exec (.drw x y n) s = .next (s.raiseHere .memBound (BitVec.ofNat 16 (max s.i.toNat memSize))) :=
  ((exec_drw_cases x y n s).resolve_left fun hin => hin.1.elim hn (Nat.not_le_of_lt h)).2

/-- A draw that starts with VF cleared leaves 1 in VF exactly if a set sprite bit inside the grid fell on a lit pixel. -/
theorem drawRows_VF_eq_one_iff (s : State) (a c0 r0 m : Nat) :
    ((s.setReg VF 0x00#8).drawRows a c0 r0 m).reg VF = 0x01#8 ↔
      ∃ c r, c < s.params.dispW ∧ r < s.params.dispH ∧ spriteBit s a c0 r0 m c r = true ∧ s.pixRead c r = true := by
  rw [reg_drawRows, reg_setReg_self, ite_eq_left_iff]
  simp only [true_and, imp_false, not_not, exists_and_left, show (0x00#8 : Byte) ≠ 0x01#8 by decide]
  rfl

/-- A pixel is turned off exactly if it was lit and its sprite bit is set. -/
theorem turnedOff_iff : ∀ pixel bit : Bool, pixel = true ∧ (pixel ^^ bit) = false ↔ bit = true ∧ pixel = true := by decide

/-- A pixel is turned on exactly if it was off and its sprite bit is set. -/
theorem turnedOn_iff : ∀ pixel bit : Bool, (pixel ^^ bit) = true ∧ pixel = false ↔ bit = true ∧ pixel = false := by decide

/-- Settles O20: the loops put the XOR on every pixel of the grid, and VF holds whether a set bit fell on a lit pixel, which is then
off. -/
theorem drawXorsTheSprite : Obligations.DrawXorsTheSprite := by
  unfold Obligations.DrawXorsTheSprite
  intro x y n s
  refine ⟨Laws.RoundTrip.drw x y n rfl, fun hin => ?inside, exec_drw_past x y n s⟩
  case inside =>
    have hpix : ∀ c r, c < s.params.dispW → r < s.params.dispH →
        ((s.setReg VF 0x00#8).drawRows s.i.toNat (s.drawCol x) (s.drawRow y) n.toNat).pixRead c r =
          (s.pixRead c r ^^ drawnBit s x y n c r) :=
      fun c r hc hr => pixRead_drawRows (s.setReg VF 0x00#8) _ _ _ hc hr
    refine ⟨_, exec_drw_inside x y n s hin, drawRows_frame (s.setReg VF 0x00#8) _ _ _ _, hpix, drawRows_VF s _ _ _ _,
      (drawRows_VF_eq_one_iff s _ _ _ _).trans ?flag, fun k hk => ?kept⟩
    case flag =>
      refine exists₂_congr fun c r => and_congr_right fun hc => and_congr_right fun hr => ?_
      rw [hpix c r hc hr, turnedOff_iff]
      rfl
    case kept => rw [reg_drawRows, if_neg fun h => hk h.1, reg_setReg_of_ne s VF _ k hk]

/-! ### The same draw twice (R151, corner case (i)) -/

/-- The sprite depends on its two position registers, I, memory and the parameters only. -/
theorem drawnBit_congr {s t : State} {x y : RegIdx} (h : t = { s with v := t.v, display := t.display }) (hx : t.reg x = s.reg x)
    (hy : t.reg y = s.reg y) (n : Nibble) (c r : Nat) : drawnBit t x y n c r = drawnBit s x y n c r := by
  rw [drawnBit, State.drawCol, State.drawRow, hx, hy, h]
  rfl

/-- No instruction lights a pixel outside the grid (R152). -/
theorem exec_display_wf {i : Instr} {s t : State} (h : exec i s = .next t) (hs : s.display.wf s.params) :
    t.display.wf t.params := by
  cases effect_of_exec h with
  | clear => exact Display.nil_wf s.params
  | draw x y n hv hd => exact hd hs
  | _ => exact hs

/-- Settles O21: by O20 the second draw XORs the same sprite bits again, so every pixel is as before the first, and the pixels it turns
off are those that the first turned on. -/
theorem drawTwiceRestoresTheDisplay : Obligations.DrawTwiceRestoresTheDisplay := by
  unfold Obligations.DrawTwiceRestoresTheDisplay
  intro x y n s hwf hx hy hin
  obtain ⟨-, hfirst, -⟩ := drawXorsTheSprite x y n s
  obtain ⟨t, ht, htframe, hfirstXor, -, -, htreg⟩ := hfirst hin
  have hi : t.i = s.i := by rw [htframe]
  have hparams : t.params = s.params := by rw [htframe]
  obtain ⟨-, hsecond, -⟩ := drawXorsTheSprite x y n t
  obtain ⟨u, hu, huframe, hsecondXor, -, huVF, -⟩ := hsecond (hi ▸ hin)
  have huparams : u.params = s.params := by rw [huframe, hparams]
  have htpix : ∀ c r, c < s.params.dispW → r < s.params.dispH → t.pixRead c r = (s.pixRead c r ^^ drawnBit s x y n c r) := hfirstXor
  have hupix : ∀ c r, c < s.params.dispW → r < s.params.dispH → u.pixRead c r = s.pixRead c r := fun c r hc hr =>
    calc u.pixRead c r
        = (t.pixRead c r ^^ drawnBit t x y n c r) := hsecondXor c r (hparams ▸ hc) (hparams ▸ hr)
      _ = ((s.pixRead c r ^^ drawnBit s x y n c r) ^^ drawnBit s x y n c r) := by
        rw [drawnBit_congr htframe (htreg x hx) (htreg y hy), htpix c r hc hr]
      _ = s.pixRead c r := by rw [Bool.xor_assoc, Bool.xor_self, Bool.xor_false]
  refine ⟨t, u, ht, hu, ?display, huVF.trans ?flag⟩
  case display =>
    have huwf : u.display.wf u.params := exec_display_wf hu (exec_display_wf ht hwf)
    rw [huparams] at huwf
    refine Display.eq_of_read huwf hwf fun c r hc hr => ?_
    have hread := hupix c r hc hr
    rwa [State.pixRead, huparams] at hread
  case flag =>
    rw [hparams]
    refine exists₂_congr fun c r => and_congr_right fun hc => and_congr_right fun hr => ?_
    rw [hupix c r hc hr, htpix c r hc hr, turnedOn_iff]

end Sys2Proof.Machine
end

section
/-! SUPPORT. Keypad (`45_keypad.md`): the key skips (O22), the wait from its beginning on (O23), its two ends (O24, O25), and the key
strobes that find no wait (O26). -/

namespace Sys2Proof.Machine

/-! ### The key skips (R160, R161) -/

/-- Settles O22: both are one skip each, on the keypad's answer and on its complement. -/
theorem keySkipsAskTheKeypad : Obligations.KeySkipsAskTheKeypad := by
  unfold Obligations.KeySkipsAskTheKeypad
  rintro x s down rfl
  refine ⟨Laws.RoundTrip.skp x rfl, Laws.RoundTrip.sknp x rfl,
    ⟨_, rfl, skipIf_only_pc s _, skipIf_pc_toNat s _⟩, ⟨_, rfl, skipIf_only_pc s _, ?_⟩⟩
  simp only [skipIf_pc_toNat, State.keyDown, Bool.not_eq_true', ← Bool.not_eq_true, ite_not]

/-! ### The ends of a key wait (R163, R164) -/

theorem endCycle_reg (s : State) (p : Pins) (r : RegIdx) : (s.endCycle p).reg r = s.reg r := by
  rw [endCycle_frame]
  rfl

theorem endCycle_inputs (s : State) (p : Pins) : (s.endCycle p).inputs = s.inputs.tail := by
  rw [endCycle_frame]

theorem endCycle_mem_of_run (s : State) {p : Pins} (h : p.run = true) : (s.endCycle p).mem = s.mem := by
  rw [endCycle_run s p h]

/-- Settles O24: the step of the edge is one write to `V[WAITREG]` and the end of the wait; the rest is what every edge does. -/
theorem keyEventResolvesTheWait : Obligations.KeyEventResolvesTheWait := by
  unfold Obligations.KeyEventResolvesTheWait
  intro s h
  refine ⟨_, step_of_keyEvent h, ?_, fun r hr => ?_, ?_, endCycle_mem_of_run _⟩
  · rw [endCycle_reg, endWait_reg, reg_setReg_self]
  · rw [endCycle_reg, endWait_reg, reg_setReg_of_ne s _ _ r hr]
  · rw [endCycle_frame]
    rfl

/-- Settles O25: the step of the edge is the end of the wait and one fault record; the rest is what every edge does. -/
theorem keyCancelBecomesAFault : Obligations.KeyCancelBecomesAFault := by
  unfold Obligations.KeyCancelBecomesAFault
  intro s h
  refine ⟨_, step_of_keyCancel h, ?_, ?_, ?_, ?_, endCycle_mem_of_run _⟩
  all_goals
    rw [endCycle_frame]
    rfl

/-! ### A held CPU (R162, R174) -/

/-- From `s` to `t` nothing changed but the timers, the buzzer, memory, the latches and the model's own fields. -/
def CpuHeld (s t : State) : Prop :=
  t = { s with dt := t.dt, st := t.st, buz := t.buz, mem := t.mem, ipend := t.ipend, tpend := t.tpend, inputs := t.inputs,
               cycle := t.cycle }

theorem CpuHeld.trans {s t u : State} (hst : CpuHeld s t) (htu : CpuHeld t u) : CpuHeld s u := by
  unfold CpuHeld at *
  rw [htu, hst]

theorem cpuHeld_endCycle (s : State) (p : Pins) : CpuHeld s (s.endCycle p) := by
  rw [CpuHeld, endCycle_frame]

theorem cpuHeld_timerStep (s : State) : CpuHeld s s.timerStep := rfl

/-- The inputs of an edge that neither resets the block nor ends a key wait. -/
abbrev KeepsWaiting (p : Pins) : Prop := p.rst = false ∧ p.keyEvent = false ∧ p.kwCancel = false

/-- With a key wait pending, such an edge is a `TimerStep` or idle: the wait rules out the `CpuStep`. -/
theorem step_of_keepsWaiting {s : State} (hwait : s.waitkey = true) (h : KeepsWaiting s.pins) : ∃ t, step s = .next t ∧
    CpuHeld s t ∧ t.inputs = s.inputs.tail ∧ (s.pins.run = true → t.mem = s.mem) := by
  obtain ⟨hrst, hevent, hcancel⟩ := h
  obtain ⟨hr, -⟩ | ⟨⟨-, -, -, he⟩, -⟩ | ⟨⟨-, -, -, -, hc⟩, -⟩ | ⟨-, hs⟩ | ⟨⟨-, -, -, -, -, hw⟩, -⟩ | ⟨-, -, -, -, -, hs⟩ := step_cases s
  · exact nomatch hr.symm.trans hrst
  · exact nomatch he.symm.trans hevent
  · exact nomatch hc.symm.trans hcancel
  · have hclear : CpuHeld s { s with tpend := false } := rfl
    exact ⟨_, hs, (hclear.trans (cpuHeld_timerStep _)).trans (cpuHeld_endCycle _ _), endCycle_inputs _ _, endCycle_mem_of_run _⟩
  · exact nomatch hw.symm.trans hwait
  · exact ⟨_, hs, cpuHeld_endCycle s _, endCycle_inputs s _, endCycle_mem_of_run s⟩

theorem run_succ_of_step {s t : State} (h : step s = .next t) (k : Nat) : Sys2Proof.core.run (k + 1) s = Sys2Proof.core.run k t := by
  have hcore : Sys2Proof.core.step s = .next t := h
  simp only [Host.Core.run, hcore]

/-- A pending key wait holds the CPU for as many edges as come without reset, key event and cancel. -/
theorem run_of_keepsWaiting (ps : List Pins) (hps : ∀ p ∈ ps, KeepsWaiting p) :
    ∀ s : State, s.waitkey = true → s.inputs = ps → ∃ u, Sys2Proof.core.run ps.length s = .next u ∧
      CpuHeld s u ∧ ((∀ p ∈ ps, p.run = true) → u.mem = s.mem) := by
  induction ps with
  | nil => exact fun s _ _ => ⟨s, rfl, rfl, fun _ => rfl⟩
  | cons p ps ih =>
    intro s hwait hin
    obtain ⟨hp, hrest⟩ := List.forall_mem_cons.1 hps
    have hpins : s.pins = p := by rw [State.pins, hin]
    obtain ⟨t, hstep, hst, htin, htmem⟩ := step_of_keepsWaiting hwait (hpins ▸ hp)
    have htwait : t.waitkey = true := by rw [hst, hwait]
    obtain ⟨u, hrun, htu, humem⟩ := ih hrest t htwait (by rw [htin, hin, List.tail_cons])
    refine ⟨u, (run_succ_of_step hstep _).trans hrun, hst.trans htu, fun hlive => ?_⟩
    obtain ⟨hplive, hlive⟩ := List.forall_mem_cons.1 hlive
    rw [humem hlive, htmem (hpins ▸ hplive)]

/-- Settles O23: the instruction only begins the wait, and the wait holds the CPU edge by edge. -/
theorem keyWaitBeginsAndHoldsTheCpu : Obligations.KeyWaitBeginsAndHoldsTheCpu := by
  unfold Obligations.KeyWaitBeginsAndHoldsTheCpu
  intro x s
  exact ⟨Laws.RoundTrip.ldVxK x rfl, s.beginWait x, rfl, rfl, rfl, rfl,
    fun ps hps => run_of_keepsWaiting ps hps { s.beginWait x with inputs := ps } rfl rfl⟩

/-! ### Key strobes without a wait (R163, R164)

Without a wait the edge is the scheduler's or idle (`step_of_no_key`). What it does then reads the inputs through `rnd` and `keys` alone
until it ends; so under other strobes it is the same, with those inputs carried along (`State.withInputs`), and the end of the edge uses
them up. The hypotheses ask for equal answers on those two ports only, where `exec_withInputs_offLoadPort` asks for equal strobes too. -/

/-- What an edge without reset and without a key step does: the scheduler's turn if `run = 1` (Log 5), else nothing. -/
def schedulerTurn (s : State) : Result := if s.pins.run then schedule s else .next s

theorem step_of_no_wait {s : State} (hrst : s.pins.rst = false) (h : s.waitkey = false ∨ s.fcause ≠ .none) :
    step s = mapNext (fun t => t.endCycle s.pins) (schedulerTurn s) := by
  have hwaiting : ¬ (s.waitkey = true ∧ s.fcause = .none) := by
    rintro ⟨hw, hf⟩
    exact h.elim (fun h => nomatch hw.symm.trans h) (· hf)
  exact step_of_no_key hrst (fun ⟨_, hw, hf, _⟩ => hwaiting ⟨hw, hf⟩) fun ⟨_, hw, hf, _⟩ => hwaiting ⟨hw, hf⟩

section
variable {s : State} {ps : List Pins} {c : Nat} (hrnd : (s.withInputs ps c).pins.rnd = s.pins.rnd)
  (hkeys : (s.withInputs ps c).pins.keys = s.pins.keys)
include hrnd hkeys

theorem exec_withInputs_of_answers (i : Instr) : exec i (s.withInputs ps c) = mapNext (State.withInputs · ps c) (exec i s) := by
  cases i with
  | rnd x kk => exact congrArg (fun b => Host.Outcome.next ((s.setReg x (b &&& kk)).withInputs ps c)) hrnd
  | skp x =>
    rw [exec, execSkp, skipIf_withInputs, State.keyDown, hkeys]
    rfl
  | sknp x =>
    rw [exec, execSknp, skipIf_withInputs, State.keyDown, hkeys]
    rfl
  | _ => exact exec_withInputs _ s ps c nofun

theorem cpuStep_withInputs_of_answers : cpuStep (s.withInputs ps c) = mapNext (State.withInputs · ps c) (cpuStep s) := by
  obtain ⟨hpc, hs⟩ | ⟨e, hpc, he, hs⟩ | ⟨i, hpc, hi, hs⟩ := cpuStep_cases s
  · rw [hs]
    exact cpuStep_of_past hpc
  · rw [hs]
    exact cpuStep_of_error hpc he
  · calc cpuStep (s.withInputs ps c)
        = exec i (s.advancePc.withInputs ps c) := cpuStep_of_ok hpc hi
      _ = mapNext (State.withInputs · ps c) (exec i s.advancePc) := exec_withInputs_of_answers (s := s.advancePc) hrnd hkeys i
      _ = mapNext (State.withInputs · ps c) (cpuStep s) := by rw [hs]

theorem schedule_withInputs_of_answers : schedule (s.withInputs ps c) = mapNext (State.withInputs · ps c) (schedule s) := by
  have hcpu := cpuStep_withInputs_of_answers (s := { s with ipend := false }) hrnd hkeys
  unfold schedule
  rw [apply_ite (mapNext _), apply_ite (mapNext _)]
  exact ite_congr rfl (fun _ => rfl) fun _ => ite_congr rfl (fun _ => hcpu) fun _ => rfl

theorem schedulerTurn_withInputs (hrun : (s.withInputs ps c).pins.run = s.pins.run) :
    schedulerTurn (s.withInputs ps c) = mapNext (State.withInputs · ps c) (schedulerTurn s) := by
  rw [schedulerTurn, schedulerTurn, hrun, schedule_withInputs_of_answers hrnd hkeys, apply_ite (mapNext _)]
  rfl

theorem step_withInputs_of_no_wait (hrun : (s.withInputs ps c).pins.run = s.pins.run) (hrst : (s.withInputs ps c).pins.rst = false)
    (h : s.waitkey = false ∨ s.fcause ≠ .none) :
    step (s.withInputs ps c) = mapNext (fun u => (u.withInputs ps c).endCycle (s.withInputs ps c).pins) (schedulerTurn s) := by
  rw [step_of_no_wait hrst h, schedulerTurn_withInputs hrnd hkeys hrun, mapNext_mapNext]

end

theorem endCycle_withInputs (s : State) (ps : List Pins) (c : Nat) (p : Pins) :
    (s.withInputs ps c).endCycle p = (s.endCycle p).withInputs ps.tail (c + 1) := by
  have hload : (s.withInputs ps c).loadPort p = (s.loadPort p).withInputs ps c := by
    unfold State.loadPort
    rw [apply_ite (State.withInputs · ps c)]
    rfl
  rw [State.endCycle, hload]
  rfl

/-- The inputs of an edge with other levels on the key strobes. -/
def withStrobes (p : Pins) (event cancel : Bool) : Pins := { p with keyEvent := event, kwCancel := cancel }

section
variable (s : State) (p : Pins) (rest : List Pins) (c : Nat) (event cancel : Bool)

theorem endCycle_withStrobes : (s.withInputs (withStrobes p event cancel :: rest) c).endCycle (withStrobes p event cancel) =
    (s.withInputs (p :: rest) c).endCycle p := by
  have hbeside : s.endCycle (withStrobes p event cancel) = s.endCycle p := rfl
  rw [endCycle_withInputs, endCycle_withInputs, hbeside]
  rfl

/-- Without a wait the edge is the same for all levels of the key strobes. -/
theorem step_withStrobes_of_no_wait (h : s.waitkey = false ∨ s.fcause ≠ .none) :
    step (s.withInputs (withStrobes p event cancel :: rest) c) = step (s.withInputs (p :: rest) c) := by
  cases hrst : p.rst with
  | true =>
    calc step (s.withInputs (withStrobes p event cancel :: rest) c)
        = .next (s.withInputs (withStrobes p event cancel :: rest) c).resetBlock.tickCycle := step_of_rst hrst
      _ = step (s.withInputs (p :: rest) c) := (step_of_rst (s := s.withInputs (p :: rest) c) hrst).symm
  | false =>
    calc step (s.withInputs (withStrobes p event cancel :: rest) c)
        = mapNext (fun u => (u.withInputs (withStrobes p event cancel :: rest) c).endCycle (withStrobes p event cancel))
          (schedulerTurn (s.withInputs (p :: rest) c)) :=
          step_withInputs_of_no_wait (s := s.withInputs (p :: rest) c) rfl rfl rfl hrst h
      _ = mapNext (fun u => (u.withInputs (p :: rest) c).endCycle p) (schedulerTurn (s.withInputs (p :: rest) c)) :=
          congrArg (mapNext · _) (funext fun u => endCycle_withStrobes u p rest c event cancel)
      _ = step (s.withInputs (p :: rest) c) :=
          (step_withInputs_of_no_wait (s := s.withInputs (p :: rest) c) rfl rfl rfl hrst h).symm

end

/-- Settles O26: other strobes are a change of the inputs to come, and the edge without a wait is the same for them. -/
theorem keyStrobeWithoutWaitHasNoEffect : Obligations.KeyStrobeWithoutWaitHasNoEffect := by
  unfold Obligations.KeyStrobeWithoutWaitHasNoEffect
  intro s p rest event cancel hin h
  calc step (s.withInputs (withStrobes p event cancel :: rest) s.cycle)
      = step (s.withInputs (p :: rest) s.cycle) := step_withStrobes_of_no_wait s p rest s.cycle event cancel h
    _ = step s := by rw [← hin]; rfl

end Sys2Proof.Machine
end

section
/-! SUPPORT. Ticks and the scheduler (`46_ticks_and_scheduler.md`): the timer step (O27), what an edge leaves in the latches (O28), the
edges without a step (O29), the tie-break of the two ticks (O30), and the instruction tick (O31). -/

namespace Sys2Proof.Machine

/-! ### The timer step (R171) -/

/-- `BUZ` is 1 exactly when `ST`, as just updated, is not 0 (R26). -/
theorem timerStep_buz_iff (s : State) : s.timerStep.buz = true ↔ s.timerStep.st ≠ 0#8 := bne_iff_ne

/-- An edge that services a timer tick: `TPEND` is cleared before the edge latches its own events (R172). -/
theorem step_of_timer_run {s : State} (h : TimerTurn s) : step s = .next { s.timerStep with
    ipend := s.ipend || s.pins.itick, tpend := s.pins.ttick, inputs := s.inputs.tail, cycle := s.cycle + 1 } := by
  have ⟨_, _, _, hrun, _⟩ := h
  rw [step_of_timer h, endCycle_run _ _ hrun]
  rfl

/-- Settles O27: the edge is one count of both timers, and the latches take its events. -/
theorem timerStepCountsDown : Obligations.TimerStepCountsDown := by
  unfold Obligations.TimerStepCountsDown
  intro s h
  exact ⟨_, step_of_timer_run h, countDown_toNat s.dt, countDown_toNat s.st, timerStep_buz_iff s, rfl⟩

/-! ### The instruction tick (R170) -/

/-- Every end of a `CpuStep` is a next state, and none touches the latches or the inputs to come. -/
theorem cpuStep_sameOutside (s : State) : ∃ u, cpuStep s = .next u ∧ SameOutside s u := by
  obtain ⟨-, hs⟩ | ⟨e, -, -, hs⟩ | ⟨i, -, -, hs⟩ := cpuStep_cases s
  · exact ⟨_, hs, rfl, rfl, rfl, rfl, rfl, rfl⟩
  · exact ⟨_, hs, rfl, rfl, rfl, rfl, rfl, rfl⟩
  · obtain ⟨u, hu, -⟩ := exec_effect i s.advancePc
    have hout : SameOutside s.advancePc u := exec_sameOutside hu
    exact ⟨u, hs.trans hu, hout⟩

/-- Around its `CpuStep` the edge of an instruction tick clears `IPEND` and then takes the tick events (R172). -/
theorem step_of_cpuStep {s u : State} (h : CpuTurn s) (hu : cpuStep { s with ipend := false } = .next u) : step s = .next { u with
    ipend := s.pins.itick, tpend := s.pins.ttick, inputs := s.inputs.tail, cycle := s.cycle + 1 } := by
  have ⟨_, hrun, htp, _⟩ := h
  obtain ⟨v, hv, -, hip, htp', -, hin, hcyc⟩ := cpuStep_sameOutside { s with ipend := false }
  obtain rfl : u = v := Host.Outcome.next.inj (hu.symm.trans hv)
  rw [step_of_cpu h, hu, mapNext_next, endCycle_run _ _ hrun, hip, htp', htp, hin, hcyc, Bool.false_or, Bool.false_or]

/-- Settles O31: the three ends of a `CpuStep`, each with what the edge does around it. -/
theorem stepRunsTheDecodedInstruction : Obligations.StepRunsTheDecodedInstruction := by
  unfold Obligations.StepRunsTheDecodedInstruction
  refine fun s h => ⟨fun hpc => ?_, fun e hpc he => ?_, fun i hpc hi => ?_⟩
  · exact step_of_cpuStep h (cpuStep_of_past hpc)
  · exact step_of_cpuStep h (cpuStep_of_error hpc he)
  · obtain ⟨t, ht, -⟩ := exec_effect i ({ s with ipend := false } : State).advancePc
    exact ⟨t, ht, step_of_cpuStep h ((cpuStep_of_ok (s := { s with ipend := false }) hpc hi).trans ht)⟩

/-! ### The latches (R172) -/

/-- The two ticks are never serviced at the same edge: a pending timer tick goes first (R173). -/
theorem not_timerTurn_of_cpuTurn {s : State} (h : CpuTurn s) : ¬ TimerTurn s := by
  rintro ⟨-, -, -, -, htp⟩
  obtain ⟨-, -, htp', -⟩ := h
  exact nomatch htp.symm.trans htp'

/-- Before an edge without reset latches its events, each latch is set exactly if it was and its tick is not serviced at this edge. -/
theorem step_clears_serviced_latch {s : State} (hrst : s.pins.rst = false) : ∃ u : State, step s = .next (u.endCycle s.pins) ∧
    (u.ipend = true ↔ s.ipend = true ∧ ¬ CpuTurn s) ∧ (u.tpend = true ↔ s.tpend = true ∧ ¬ TimerTurn s) := by
  obtain ⟨h, -⟩ | ⟨he, hs⟩ | ⟨hc, hs⟩ | ⟨ht, hs⟩ | ⟨hp, hs⟩ | ⟨-, -, -, ht, hp, hs⟩ := step_cases s
  · exact nomatch h.symm.trans hrst
  · have hp : ¬ CpuTurn s := fun hp => (cpuTurn_no_key hp).1 he
    have ht : ¬ TimerTurn s := fun ⟨_, hne, _⟩ => hne he
    exact ⟨_, hs, (and_iff_left hp).symm, (and_iff_left ht).symm⟩
  · have hp : ¬ CpuTurn s := fun hp => (cpuTurn_no_key hp).2 hc
    have ht : ¬ TimerTurn s := fun ⟨_, _, hnc, _⟩ => hnc hc
    exact ⟨_, hs, (and_iff_left hp).symm, (and_iff_left ht).symm⟩
  · have hp : ¬ CpuTurn s := fun hp => not_timerTurn_of_cpuTurn hp ht
    exact ⟨_, hs, (and_iff_left hp).symm, iff_of_false nofun fun h => h.2 ht⟩
  · have ht : ¬ TimerTurn s := not_timerTurn_of_cpuTurn hp
    obtain ⟨u, hu, -, hip, htp', -⟩ := cpuStep_sameOutside { s with ipend := false }
    refine ⟨u, by rw [hs, hu, mapNext_next], ?_, ?_⟩
    · rw [hip]
      exact iff_of_false nofun fun h => h.2 hp
    · rw [htp']
      exact (and_iff_left ht).symm
  · exact ⟨_, hs, (and_iff_left hp).symm, (and_iff_left ht).symm⟩

/-- Settles O28: the step of the edge clears the latch it services, and only then the edge takes its events, so that set wins. -/
theorem tickLatchesKeepOneEvent : Obligations.TickLatchesKeepOneEvent := by
  unfold Obligations.TickLatchesKeepOneEvent
  intro s hrst
  obtain ⟨u, hs, hip, htp⟩ := step_clears_serviced_latch hrst
  refine ⟨_, hs, ?_⟩
  simp only [endCycle_frame, Bool.or_eq_true, Bool.and_eq_true, hip, htp]
  exact ⟨or_comm, or_comm⟩

/-! ### Edges without a step (R173, R174) -/

/-- While `run = 0` no tick is serviced (Log 5). -/
theorem not_tick_of_paused {s : State} (h : s.pins.run = false) : ¬ TimerTurn s ∧ ¬ CpuTurn s :=
  ⟨fun ⟨_, _, _, hrun, _⟩ => Bool.noConfusion (hrun.symm.trans h), fun ⟨_, hrun, _⟩ => Bool.noConfusion (hrun.symm.trans h)⟩

/-- Settles O29: an idle edge does only what every edge does; with `run = 1` that is to latch, with `run = 0` to serve the load port. -/
theorem idleTurnChangesOnlyTheLatches : Obligations.IdleTurnChangesOnlyTheLatches := by
  unfold Obligations.IdleTurnChangesOnlyTheLatches
  refine ⟨fun s hrst hrun he hc ht hp => ?_, fun s hrst hrun he hc => ?_⟩
  · have htp : s.tpend = false := Bool.eq_false_iff.2 fun htp => ht ⟨hrst, he, hc, hrun, htp⟩
    rw [step_of_idle hrst he hc ht hp, endCycle_run _ _ hrun, htp, Bool.false_or]
  · obtain ⟨ht, hp⟩ := not_tick_of_paused hrun
    refine ⟨_, step_of_idle hrst he hc ht hp, ?_, fun a ha => ?_, fun hwe => ?_⟩
    · rw [endCycle_frame, hrun, Bool.and_false, Bool.and_false, Bool.or_false, Bool.or_false]
    · rw [endCycle_readByte, if_neg fun h => ha h.2]
    · rw [endCycle_frame, State.loadPort, hwe, Bool.and_false]
      rfl

/-! ### The tie-break (R173) -/

theorem pins_of_inputs {s : State} {p : Pins} {rest : List Pins} (h : s.inputs = p :: rest) : s.pins = p := by
  rw [State.pins, h]

theorem no_keyTurn_of_no_wait {s : State} (h : s.waitkey = false) : ¬ KeyEventTurn s ∧ ¬ KeyCancelTurn s :=
  ⟨fun ⟨_, hw, _⟩ => Bool.noConfusion (hw.symm.trans h), fun ⟨_, hw, _⟩ => Bool.noConfusion (hw.symm.trans h)⟩

/-- Settles O30: the timer step leaves the instruction tick pending and the CPU as it was, and uses up one record of inputs. -/
theorem timerTickGoesFirst : Obligations.TimerTickGoesFirst := by
  unfold Obligations.TimerTickGoesFirst
  intro s p q rest hin hprst hprun hptick hqrst hqrun htp hip hf hw
  obtain rfl : s.pins = p := pins_of_inputs hin
  obtain ⟨he, hc⟩ := no_keyTurn_of_no_wait hw
  have hturn : TimerTurn s := ⟨hprst, he, hc, hprun, htp⟩
  refine ⟨hturn, _, step_of_timer_run hturn, rfl, rfl, ?_⟩
  rw [hptick, hip, hin, Bool.true_or, List.tail_cons]
  exact ⟨hqrst, hqrun, rfl, rfl, hf, hw⟩

end Sys2Proof.Machine
end

section
/-! SUPPORT. Exceptions (`60_exceptions.md`): the faults of an instruction tick (O32 to O34), a recorded fault (O35), and the execution of
every instruction in every state (O49). -/

namespace Sys2Proof.Machine

/-! ### The causes DecodeFailure and MemBound (R191, R192) -/

/-- A word that encodes no instruction does not decode: what decodes is the encoding of its answer (O42). -/
theorem decodeWord_of_no_instr {w : Word} (h : ∀ i, encode i ≠ w) : ∃ e, decodeWord w = .error e := by
  cases hd : decodeWord w with
  | error e => exact ⟨e, rfl⟩
  | ok i => exact absurd (encodeInvertsDecode w i hd).2 (h i)

/-- A fetch inside memory advances the PC without wrap-around (R170). -/
theorem advancePc_pc_toNat {s : State} (h : s.pc.toNat ≤ lastFetch) : s.advancePc.pc.toNat = s.pc.toNat + 2 := by
  rw [advancePc_pc, BitVec.toNat_add]
  exact Nat.mod_eq_of_lt ((Nat.add_le_add_right h 2).trans_lt (by decide))

/-- Settles O32: the word does not decode, so the `CpuStep` ends in the one raise of a decode failure. -/
theorem illegalWordRaisesDecodeFailure : Obligations.IllegalWordRaisesDecodeFailure := by
  unfold Obligations.IllegalWordRaisesDecodeFailure
  rintro s w h hpc rfl hw
  obtain ⟨e, he⟩ := decodeWord_of_no_instr hw
  exact ⟨_, step_of_cpuStep h (cpuStep_of_error hpc he), rfl, rfl, rfl, rfl, advancePc_pc_toNat hpc, rfl⟩

/-- Settles O33: each of the four range checks raises before the body runs, and the fetch before the PC advances. -/
theorem accessPastMemoryRaisesMemBound : Obligations.AccessPastMemoryRaisesMemBound := by
  unfold Obligations.AccessPastMemoryRaisesMemBound
  intro s x y n
  refine ⟨fun hpast => exec_ldB_past x s (Nat.add_le_add_right hpast 3), fun hpast => exec_storeRegs_past x s (Nat.succ_lt_succ hpast),
    fun hpast => exec_loadRegs_past x s (Nat.succ_lt_succ hpast), fun hn hpast => exec_drw_past x y n s ?rows ?past,
    fun h hpc => ⟨_, step_of_cpuStep h (cpuStep_of_past hpc), rfl⟩⟩
  case rows =>
    rintro rfl
    exact absurd hn (by decide)
  case past =>
    show 4096 < s.i.toNat + n.toNat
    omega

/-! ### Precise faults (R198) -/

/-- A `CpuStep` records no fault, or does nothing but record one at the fetch address, before or after the PC's advance. -/
theorem cpuStep_fault_precise {s u : State} (h : cpuStep s = .next u) :
    u.fcause = s.fcause ∨
    ∃ pc c info, (pc = s.pc ∨ pc = s.pc + 2#16) ∧ u = (s.setPc pc).raise c info s.pc := by
  have eq_of_cpuStep : ∀ {v}, cpuStep s = .next v → v = u := fun hv => Host.Outcome.next.inj (hv.symm.trans h)
  obtain ⟨-, hs⟩ | ⟨e, -, -, hs⟩ | ⟨i, -, -, hs⟩ := cpuStep_cases s
  · obtain rfl := eq_of_cpuStep hs
    exact .inr ⟨s.pc, _, _, .inl rfl, rfl⟩
  · obtain rfl := eq_of_cpuStep hs
    exact .inr ⟨s.pc + 2#16, _, _, .inr rfl, rfl⟩
  · obtain ⟨c, info, -, hi⟩ | ⟨v, hi, hcause, -⟩ := exec_cases i s.advancePc
    · obtain rfl := eq_of_cpuStep (hs.trans hi)
      exact .inr ⟨s.pc + 2#16, c, info, .inr rfl, by rw [State.raiseHere, insnAddr_advancePc]; rfl⟩
    · obtain rfl := eq_of_cpuStep (hs.trans hi)
      exact .inl hcause

/-- Settles O34: the edge around the `CpuStep` adds only the latches and the inputs used up. -/
theorem faultsArePrecise : Obligations.FaultsArePrecise := by
  unfold Obligations.FaultsArePrecise
  intro s t h ht hfault
  have ⟨_, _, _, _, hhealthy, _⟩ := h
  obtain ⟨u, hu, -⟩ := cpuStep_sameOutside { s with ipend := false }
  obtain rfl := Host.Outcome.next.inj ((step_of_cpuStep h hu).symm.trans ht)
  obtain hsame | ⟨pc, c, info, hpc, rfl⟩ := cpuStep_fault_precise hu
  · exact absurd (hsame.trans hhealthy) hfault
  · exact ⟨rfl, hpc, rfl⟩

/-! ### A recorded fault (R198, R199) -/

/-- Settles O35: with a fault recorded the edge is a `TimerStep` or idle: the fault rules out the key steps and the `CpuStep`. -/
theorem recordedFaultHoldsTheCpu : Obligations.RecordedFaultHoldsTheCpu := by
  unfold Obligations.RecordedFaultHoldsTheCpu
  intro s hfault hrst
  obtain ⟨h, -⟩ | ⟨⟨-, -, h, -⟩, -⟩ | ⟨⟨-, -, h, -⟩, -⟩ | ⟨-, hs⟩ | ⟨⟨-, -, -, -, h, -⟩, -⟩ | ⟨-, -, -, -, -, hs⟩ := step_cases s
  · exact nomatch h.symm.trans hrst
  · exact absurd h hfault
  · exact absurd h hfault
  · have hclear : CpuHeld s { s with tpend := false } := rfl
    exact ⟨_, hs, (hclear.trans (cpuHeld_timerStep _)).trans (cpuHeld_endCycle _ _), endCycle_mem_of_run _⟩
  · exact absurd h hfault
  · exact ⟨_, hs, cpuHeld_endCycle s _, endCycle_mem_of_run s⟩

/-! ### Every instruction executes (R201) -/

/-- Settles O49: an instruction records a fault and nothing else, or leaves the fault record alone. -/
theorem everyInstructionExecutesInEveryState : Obligations.EveryInstructionExecutesInEveryState := by
  unfold Obligations.EveryInstructionExecutesInEveryState
  intro i s
  obtain ⟨c, info, -, h⟩ | ⟨t, h, hcause, -⟩ := exec_cases i s
  · exact ⟨_, h, .inr rfl⟩
  · exact ⟨t, h, .inl hcause⟩

end Sys2Proof.Machine
end

section
/-! SUPPORT. Reset, program load and the end of a run (`70_reset_and_hazards.md`): the state after a reset edge (O37), the image loaded
through the port (O40), the run that never stops (O48), and the parked program (O60). -/

namespace Sys2Proof.Machine

/-- Settles O37: the block is as in `State.reset`, but for the display and the parameters. -/
theorem resetRestoresTheBlock : Obligations.ResetRestoresTheBlock := by
  unfold Obligations.ResetRestoresTheBlock
  intro s hrst
  exact ⟨_, step_of_rst hrst, reset_reg, reset_slot, fun _ => rfl, rfl, rfl, rfl, rfl, rfl, rfl, rfl, rfl, rfl, rfl, rfl, rfl, rfl, rfl, rfl⟩

/-! ### Program load (R222) -/

/-- An edge of the load schedule writes its byte and uses up its inputs; a tick or a key wait that is pending stays so (Log 5). -/
theorem step_of_loadPins {s : State} {a : Addr12} {b : Byte} {rest : List Pins} (h : s.inputs = loadPins a b :: rest) :
    step s = .next { s.writeByte a.toNat b with inputs := rest, cycle := s.cycle + 1 } := by
  have hpins : s.pins = loadPins a b := pins_of_inputs h
  have hrst : s.pins.rst = false := by rw [hpins]; rfl
  have hrun : s.pins.run = false := by rw [hpins]; rfl
  have hevent : ¬ KeyEventTurn s := fun ⟨_, _, _, hk⟩ => nomatch hpins ▸ hk
  have hcancel : ¬ KeyCancelTurn s := fun ⟨_, _, _, _, hk⟩ => nomatch hpins ▸ hk
  obtain ⟨htimer, hcpu⟩ := not_tick_of_paused hrun
  have hload : s.loadPort (loadPins a b) = s.writeByte a.toNat b := rfl
  rw [step_of_idle hrst hevent hcancel htimer hcpu, hpins, endCycle_frame, hload, h, List.tail_cons]
  simp [loadPins, State.writeByte]

/-- From `s` to `t` the bytes of `img` were put into memory from address `a` on, and nothing else changed but the inputs used up. -/
structure Loaded (a : Nat) (img : List Byte) (s t : State) : Prop where
  inside : ∀ (k : Nat) (h : k < img.length), t.readByte (a + k) = img[k]
  outside : ∀ b, (b < a ∨ a + img.length ≤ b) → t.readByte b = s.readByte b
  frame : t = { s with mem := t.mem, inputs := t.inputs, cycle := t.cycle }

theorem Loaded.nil (a : Nat) (s : State) : Loaded a [] s s where
  inside k h := absurd h (Nat.not_lt_zero k)
  outside _ _ := rfl
  frame := rfl

/-- The first byte written at `a`, then the others from `a + 1` on, which leave it as it is. -/
theorem Loaded.cons {a : Nat} {b : Byte} {img : List Byte} {s t : State} (ps : List Pins) (c : Nat)
    (h : Loaded (a + 1) img { s.writeByte a b with inputs := ps, cycle := c } t) : Loaded a (b :: img) s t where
  inside k hk := by
    cases k with
    | zero =>
      calc t.readByte a = (s.writeByte a b).readByte a := h.outside a (.inl (Nat.lt_succ_self a))
        _ = b := by rw [readByte_writeByte, if_pos rfl]
    | succ k =>
      have hk' : k < img.length := Nat.lt_of_succ_lt_succ hk
      rw [← Nat.succ_add_eq_add_succ]
      exact h.inside k hk'
  outside d hd := by
    rw [List.length_cons] at hd
    calc t.readByte d = (s.writeByte a b).readByte d := h.outside d (by omega)
      _ = s.readByte d := by rw [readByte_writeByte, if_neg (by omega)]
  frame := by rw [h.frame]; rfl

/-- The load schedule of an image that fits into memory loads it. -/
theorem run_loadSchedule (img : List Byte) (rest : List Pins) : ∀ (a : Nat) (s : State), a + img.length ≤ memSize →
    s.inputs = loadSchedule a img ++ rest →
    ∃ t, Sys2Proof.core.run img.length s = .next t ∧ t.inputs = rest ∧ Loaded a img s t := by
  induction img with
  | nil => exact fun a s _ hin => ⟨s, rfl, hin, .nil a s⟩
  | cons b img ih =>
    intro a s hfit hin
    rw [List.length_cons] at hfit
    have haddr : (BitVec.ofNat 12 a).toNat = a := by
      rw [BitVec.toNat_ofNat]
      exact Nat.mod_eq_of_lt (show a < memSize by omega)
    have hstep : step s = .next { s.writeByte a b with inputs := loadSchedule (a + 1) img ++ rest, cycle := s.cycle + 1 } := by
      rw [step_of_loadPins hin, haddr]
      rfl
    obtain ⟨t, hrun, htin, hload⟩ :=
      ih (a + 1) { s.writeByte a b with inputs := loadSchedule (a + 1) img ++ rest, cycle := s.cycle + 1 } (by omega) rfl
    exact ⟨t, (run_succ_of_step hstep _).trans hrun, htin, hload.cons _ _⟩

/-- Settles O40: 3584 bytes from 512 on just fit into memory. -/
theorem loadedImageStandsAt512 : Obligations.LoadedImageStandsAt512 := by
  unfold Obligations.LoadedImageStandsAt512
  intro img s rest hlen hin
  obtain ⟨t, hrun, htin, hload⟩ := run_loadSchedule img rest 512 s (Nat.add_le_add_left hlen 512) hin
  exact ⟨t, hrun, htin, hload.inside, hload.outside, hload.frame⟩

/-! ### No halt (R226, R209) -/

theorem endCycle_params (s : State) (p : Pins) : (s.endCycle p).params = s.params := by
  rw [endCycle_frame]

/-- Whichever step an edge takes, it goes on to a next state and keeps the parameters (R32). -/
theorem step_next_params (s : State) : ∃ t, step s = .next t ∧ t.params = s.params := by
  obtain ⟨-, hs⟩ | ⟨-, hs⟩ | ⟨-, hs⟩ | ⟨-, hs⟩ | ⟨-, hs⟩ | ⟨-, -, -, -, -, hs⟩ := step_cases s
  · exact ⟨_, hs, rfl⟩
  · exact ⟨_, hs, endCycle_params _ _⟩
  · exact ⟨_, hs, endCycle_params _ _⟩
  · exact ⟨_, hs, endCycle_params _ _⟩
  · obtain ⟨u, hu, -, -, -, hparams, -⟩ := cpuStep_sameOutside { s with ipend := false }
    exact ⟨_, hs.trans (by rw [hu, mapNext_next]), (endCycle_params _ _).trans hparams⟩
  · exact ⟨_, hs, endCycle_params _ _⟩

/-- Settles O48: edge by edge. -/
theorem machineNeverStops : Obligations.MachineNeverStops := by
  unfold Obligations.MachineNeverStops
  intro k
  induction k with
  | zero => exact fun s => ⟨s, rfl, rfl⟩
  | succ k ih =>
    intro s
    obtain ⟨t, hstep, ht⟩ := step_next_params s
    obtain ⟨u, hrun, hu⟩ := ih t
    exact ⟨u, (run_succ_of_step hstep k).trans hrun, hu.trans ht⟩

/-! ### The parked program (R226 (c)) -/

/-- The `CpuStep` of a parked program advances the PC and jumps back. -/
theorem cpuStep_of_parked {a : Addr12} {s : State} (h : Parked a s) : cpuStep s = .next s := by
  obtain ⟨hpc, hle, hword, -⟩ := h
  have hdecode : decodeWord s.fetchWord = .ok (.jp a) := hword ▸ Laws.RoundTrip.jp a rfl
  calc cpuStep s = exec (.jp a) s.advancePc := cpuStep_of_ok hle hdecode
    _ = .next (s.setPc (zext16 a)) := rfl
    _ = .next s := by rw [← hpc]; rfl

/-- Settles O60: the `CpuStep` changes nothing, and the edge around it touches nothing that `Parked` speaks of. -/
theorem parkedProgramStaysParked : Obligations.ParkedProgramStaysParked := by
  unfold Obligations.ParkedProgramStaysParked
  intro a s h hturn
  have hstay : cpuStep { s with ipend := false } = .next { s with ipend := false } := cpuStep_of_parked (a := a) h
  exact ⟨_, step_of_cpuStep hturn hstay, h, rfl⟩

end Sys2Proof.Machine
end
